-- ==== Sys2Proof/Word.lean ====
section
/-! DEFINITION. The machine word and the narrower bit fields the spec names (00_scope.md R6, 10_state.md R10). -/

namespace Sys2Proof

/-- The Word, the unit of storage and computation; `+` on it is the spec's `+16` (R7, R10). -/
abbrev Word := BitVec 16

/-- A character, a trap vector, half a word. -/
abbrev Byte := BitVec 8

/-- A general register index, a 3-bit field of an instruction (R11). -/
abbrev RegIdx := BitVec 3

end Sys2Proof
end

