-- ==== Sys2Proof/Syntax.lean ====
section
/-! DEFINITION. The instructions: one constructor for each row of spec/opcode_table.json, each with the fields the decoder
delivers (30_encoding.md R55): offsets and immediates already sign-extended to 16 bits, the raw word for the two Illegal
opcodes. -/

namespace Sys2Proof

/-- The 16 values of the opcode field, by name (30_encoding.md R54). -/
inductive Opcode where
  | br | add | ld | st | jsr | and | ldr | str | rti | not | ldi | sti | jmp | reserved | lea | trap
deriving DecidableEq, Repr

/-- A decoded instruction (R55). -/
inductive Instr where
  /-- BR: the three request bits and the offset. -/
  | br (n z p : Bool) (off : Word)
  /-- ADD, register form. -/
  | addReg (dr sr1 sr2 : RegIdx)
  /-- ADD, immediate form. -/
  | addImm (dr sr1 : RegIdx) (imm : Word)
  | ld (dr : RegIdx) (off : Word)
  | st (sr : RegIdx) (off : Word)
  | jsr (off : Word)
  | jsrr (base : RegIdx)
  /-- AND, register form. -/
  | andReg (dr sr1 sr2 : RegIdx)
  /-- AND, immediate form. -/
  | andImm (dr sr1 : RegIdx) (imm : Word)
  | ldr (dr base : RegIdx) (off : Word)
  | str (sr base : RegIdx) (off : Word)
  /-- RTI, opcode 1000: the decoder's Illegal variant with its raw word. -/
  | rti (raw : Word)
  | notReg (dr sr : RegIdx)
  | ldi (dr : RegIdx) (off : Word)
  | sti (sr : RegIdx) (off : Word)
  /-- JMP; RET is JMP with base 7. -/
  | jmp (base : RegIdx)
  /-- The reserved opcode 1101: the decoder's Illegal variant with its raw word. -/
  | reserved (raw : Word)
  | lea (dr : RegIdx) (off : Word)
  | trap (vec : Byte)
deriving DecidableEq, Repr

/-- The opcode the tag of an instruction determines (30_encoding.md R61 (a)). -/
def Instr.opcode : Instr → Opcode
  | .br _ _ _ _ => .br
  | .addReg _ _ _ => .add
  | .addImm _ _ _ => .add
  | .ld _ _ => .ld
  | .st _ _ => .st
  | .jsr _ => .jsr
  | .jsrr _ => .jsr
  | .andReg _ _ _ => .and
  | .andImm _ _ _ => .and
  | .ldr _ _ _ => .ldr
  | .str _ _ _ => .str
  | .rti _ => .rti
  | .notReg _ _ => .not
  | .ldi _ _ => .ldi
  | .sti _ _ => .sti
  | .jmp _ => .jmp
  | .reserved _ => .reserved
  | .lea _ _ => .lea
  | .trap _ => .trap

end Sys2Proof
end

