-- ==== Sys2Proof/WellFormed.lean ====
section
/-! DEFINITION. Which instructions some word encodes: the checks on the fields that `Instr` carries wider than the encoding
(30_encoding.md R53, R55, R58). Register indices, request bits and the trap vector have the width of their fields and need no
check. -/

namespace Sys2Proof

/-- `v` is the 16-bit sign extension of its own low `n` bits: an `n`-bit immediate as the decoder delivers it (R53). -/
abbrev isSext (n : Nat) (v : Word) : Prop := (v.setWidth n).signExtend 16 = v

/-- The word's opcode field holds `op`. -/
abbrev hasOpcode (op : BitVec 4) (raw : Word) : Prop := raw.extractLsb' 12 4 = op

/-- The check, one arm per constructor: the fields are ones the decoder can deliver. -/
def Instr.wellFormed : Instr → Bool
  | .br _ _ _ off => decide (isSext 9 off)
  | .addReg _ _ _ => true
  | .addImm _ _ imm => decide (isSext 5 imm)
  | .ld _ off => decide (isSext 9 off)
  | .st _ off => decide (isSext 9 off)
  | .jsr off => decide (isSext 11 off)
  | .jsrr _ => true
  | .andReg _ _ _ => true
  | .andImm _ _ imm => decide (isSext 5 imm)
  | .ldr _ _ off => decide (isSext 6 off)
  | .str _ _ off => decide (isSext 6 off)
  | .rti raw => decide (hasOpcode 0b1000 raw)
  | .notReg _ _ => true
  | .ldi _ off => decide (isSext 9 off)
  | .sti _ off => decide (isSext 9 off)
  | .jmp _ => true
  | .reserved raw => decide (hasOpcode 0b1101 raw)
  | .lea _ off => decide (isSext 9 off)
  | .trap _ => true

/-- The instruction's fields are ones the decoder can deliver. -/
abbrev Instr.WellFormed (i : Instr) : Prop := i.wellFormed = true

end Sys2Proof
end

