-- ==== Sys2Proof/Decode.lean ====
section
/-! DEFINITION. The decoder (30_encoding.md R55, R56), total on words, and on bytes but for a word cut short, which it rejects by
name; after it the encoder, written from the same tables (R51, R54). The opcode numbers and every field position are the
spec's, supplied from general knowledge (D2, D3): PRESUMED, unsafe, assumption 12. -/

namespace Sys2Proof

/-! ## Bit fields, sign extension, byte order -/

/-- `sext_N` (R7): the field widened to 16 bits by replicating its sign bit. -/
def sext {n : Nat} (f : BitVec n) : Word := f.signExtend 16

/-- `zext_8` (R7). -/
def zext8 (c : Byte) : Word := c.setWidth 16

/-- `w[7:0]`. -/
def lowByte (w : Word) : Byte := w.extractLsb' 0 8

/-- `w[15:8]`. -/
def highByte (w : Word) : Byte := w.extractLsb' 8 8

/-- A word from its high and its low byte. -/
def wordOf (hi lo : Byte) : Word := hi ++ lo

/-- DR, or the SR of a store: `w[11:9]` (R52). -/
def fieldDR (w : Word) : RegIdx := w.extractLsb' 9 3

/-- SR1, the SR of NOT, or BaseR: `w[8:6]` (R52). -/
def fieldBase (w : Word) : RegIdx := w.extractLsb' 6 3

/-- SR2: `w[2:0]` (R52). -/
def fieldSR2 (w : Word) : RegIdx := w.extractLsb' 0 3

/-- imm5 as the decoder delivers it (R53). -/
def fieldImm5 (w : Word) : Word := sext (w.extractLsb' 0 5)

/-- offset6 as the decoder delivers it (R53). -/
def fieldOff6 (w : Word) : Word := sext (w.extractLsb' 0 6)

/-- offset9 as the decoder delivers it (R53). -/
def fieldOff9 (w : Word) : Word := sext (w.extractLsb' 0 9)

/-- offset11 as the decoder delivers it (R53). -/
def fieldOff11 (w : Word) : Word := sext (w.extractLsb' 0 11)

/-! ## The opcode map -/

/-- The number of each opcode (R54), the one table of them. -/
def opcodeNumber : Opcode → BitVec 4
  | .br => 0b0000
  | .add => 0b0001
  | .ld => 0b0010
  | .st => 0b0011
  | .jsr => 0b0100
  | .and => 0b0101
  | .ldr => 0b0110
  | .str => 0b0111
  | .rti => 0b1000
  | .not => 0b1001
  | .ldi => 0b1010
  | .sti => 0b1011
  | .jmp => 0b1100
  | .reserved => 0b1101
  | .lea => 0b1110
  | .trap => 0b1111

/-- The opcodes in the order of their numbers. -/
def opcodes : List Opcode :=
  [.br, .add, .ld, .st, .jsr, .and, .ldr, .str, .rti, .not, .ldi, .sti, .jmp, .reserved, .lea, .trap]

/-- The opcode with a number, read out of `opcodeNumber`; every number has one. -/
def opcodeOf (n : BitVec 4) : Opcode := (opcodes.find? fun op => opcodeNumber op == n).getD .reserved

/-! ## Decoding -/

/-- `decode(w)` (R56). Bits a format does not use are neither checked nor kept (R57, D4: DEDUCED, unsafe, assumption 13). -/
def decodeWord (w : Word) : Instr :=
  match opcodeOf (w.extractLsb' 12 4) with
  | .br => .br (w.getLsbD 11) (w.getLsbD 10) (w.getLsbD 9) (fieldOff9 w)
  | .add =>
    if w.getLsbD 5 then .addImm (fieldDR w) (fieldBase w) (fieldImm5 w)
    else .addReg (fieldDR w) (fieldBase w) (fieldSR2 w)
  | .ld => .ld (fieldDR w) (fieldOff9 w)
  | .st => .st (fieldDR w) (fieldOff9 w)
  | .jsr => if w.getLsbD 11 then .jsr (fieldOff11 w) else .jsrr (fieldBase w)
  | .and =>
    if w.getLsbD 5 then .andImm (fieldDR w) (fieldBase w) (fieldImm5 w)
    else .andReg (fieldDR w) (fieldBase w) (fieldSR2 w)
  | .ldr => .ldr (fieldDR w) (fieldBase w) (fieldOff6 w)
  | .str => .str (fieldDR w) (fieldBase w) (fieldOff6 w)
  | .rti => .rti w
  | .not => .notReg (fieldDR w) (fieldBase w)
  | .ldi => .ldi (fieldDR w) (fieldOff9 w)
  | .sti => .sti (fieldDR w) (fieldOff9 w)
  | .jmp => .jmp (fieldBase w)
  | .reserved => .reserved w
  | .lea => .lea (fieldDR w) (fieldOff9 w)
  | .trap => .trap (lowByte w)

/-- Why a list of bytes has no first instruction. The hardware's decoder refuses no word (R55); only a list shorter than one
word is refused. -/
inductive DecodeError where
  /-- Fewer than the two bytes of one word. -/
  | truncated
deriving DecidableEq, Repr

/-- The instruction at the front of a list of bytes, each word with its high byte first as in the image file (R37 (a), R161),
and the bytes after it. -/
def decode : List Byte → Except DecodeError (Instr × List Byte)
  | hi :: lo :: rest => .ok (decodeWord (wordOf hi lo), rest)
  | _ => .error .truncated

/-- The bytes of a word as `decode` takes them. -/
def wordBytes (w : Word) : List Byte := [highByte w, lowByte w]

/-- What the decoder reads from an instruction whose bits are `w`, numbered as spec/opcode_table.json numbers them; bits above
`nbits` are 0, and every instruction is one word (R50). -/
def decodeTableWord (nbits w : Nat) : Option Instr :=
  match decode (wordBytes (BitVec.ofNat 16 (w % 2 ^ nbits))) with
  | .ok (i, _) => some i
  | .error _ => none

/-! ## Encoding -/

/-- A field put at its place in a word, bit 0 of the field at bit `lo`. -/
def place {n : Nat} (lo : Nat) (f : BitVec n) : Word := f.setWidth 16 <<< lo

/-- An opcode put at bits [15:12]. -/
def placeOpcode (op : Opcode) : Word := place 12 (opcodeNumber op)

/-- The word of an instruction, ignored bits 0 (R51, R54). -/
def encode : Instr → Word
  | .br n z p off =>
    placeOpcode .br ||| place 11 (BitVec.ofBool n) ||| place 10 (BitVec.ofBool z) ||| place 9 (BitVec.ofBool p)
      ||| place 0 (off.setWidth 9)
  | .addReg dr sr1 sr2 => placeOpcode .add ||| place 9 dr ||| place 6 sr1 ||| place 0 sr2
  | .addImm dr sr1 imm => placeOpcode .add ||| place 9 dr ||| place 6 sr1 ||| place 5 1#1 ||| place 0 (imm.setWidth 5)
  | .ld dr off => placeOpcode .ld ||| place 9 dr ||| place 0 (off.setWidth 9)
  | .st sr off => placeOpcode .st ||| place 9 sr ||| place 0 (off.setWidth 9)
  | .jsr off => placeOpcode .jsr ||| place 11 1#1 ||| place 0 (off.setWidth 11)
  | .jsrr base => placeOpcode .jsr ||| place 6 base
  | .andReg dr sr1 sr2 => placeOpcode .and ||| place 9 dr ||| place 6 sr1 ||| place 0 sr2
  | .andImm dr sr1 imm => placeOpcode .and ||| place 9 dr ||| place 6 sr1 ||| place 5 1#1 ||| place 0 (imm.setWidth 5)
  | .ldr dr base off => placeOpcode .ldr ||| place 9 dr ||| place 6 base ||| place 0 (off.setWidth 6)
  | .str sr base off => placeOpcode .str ||| place 9 sr ||| place 6 base ||| place 0 (off.setWidth 6)
  | .rti raw => raw
  | .notReg dr sr => placeOpcode .not ||| place 9 dr ||| place 6 sr
  | .ldi dr off => placeOpcode .ldi ||| place 9 dr ||| place 0 (off.setWidth 9)
  | .sti sr off => placeOpcode .sti ||| place 9 sr ||| place 0 (off.setWidth 9)
  | .jmp base => placeOpcode .jmp ||| place 6 base
  | .reserved raw => raw
  | .lea dr off => placeOpcode .lea ||| place 9 dr ||| place 0 (off.setWidth 9)
  | .trap vec => placeOpcode .trap ||| place 0 vec

/-- The bytes of an instruction, high byte first. -/
def encodeBytes (i : Instr) : List Byte := wordBytes (encode i)

/-! ## Ignored bits and the opcode table -/

/-- The bits of its word that an instruction's format uses (R57): the others are ignored. -/
def usedBits : Instr → Word
  | .addReg _ _ _ => 0xFFE7
  | .andReg _ _ _ => 0xFFE7
  | .notReg _ _ => 0xFFC0
  | .jmp _ => 0xF1C0
  | .jsrr _ => 0xF9C0
  | .trap _ => 0xF0FF
  | .br _ _ _ _ => 0xFFFF
  | .addImm _ _ _ => 0xFFFF
  | .ld _ _ => 0xFFFF
  | .st _ _ => 0xFFFF
  | .jsr _ => 0xFFFF
  | .andImm _ _ _ => 0xFFFF
  | .ldr _ _ _ => 0xFFFF
  | .str _ _ _ => 0xFFFF
  | .rti _ => 0xFFFF
  | .ldi _ _ => 0xFFFF
  | .sti _ _ => 0xFFFF
  | .reserved _ => 0xFFFF
  | .lea _ _ => 0xFFFF

/-- A row of spec/opcode_table.json: a word selects it when `w & mask = pattern` (R62). -/
structure TableRow where
  mask : Word
  pattern : Word
deriving DecidableEq, Repr

/-- The row of each constructor (R62). -/
def tableRow : Instr → TableRow
  | .br _ _ _ _ => ⟨0xF000, 0x0000⟩
  | .addReg _ _ _ => ⟨0xF020, 0x1000⟩
  | .addImm _ _ _ => ⟨0xF020, 0x1020⟩
  | .ld _ _ => ⟨0xF000, 0x2000⟩
  | .st _ _ => ⟨0xF000, 0x3000⟩
  | .jsr _ => ⟨0xF800, 0x4800⟩
  | .jsrr _ => ⟨0xF800, 0x4000⟩
  | .andReg _ _ _ => ⟨0xF020, 0x5000⟩
  | .andImm _ _ _ => ⟨0xF020, 0x5020⟩
  | .ldr _ _ _ => ⟨0xF000, 0x6000⟩
  | .str _ _ _ => ⟨0xF000, 0x7000⟩
  | .rti _ => ⟨0xF000, 0x8000⟩
  | .notReg _ _ => ⟨0xF000, 0x9000⟩
  | .ldi _ _ => ⟨0xF000, 0xA000⟩
  | .sti _ _ => ⟨0xF000, 0xB000⟩
  | .jmp _ => ⟨0xF000, 0xC000⟩
  | .reserved _ => ⟨0xF000, 0xD000⟩
  | .lea _ _ => ⟨0xF000, 0xE000⟩
  | .trap _ => ⟨0xF000, 0xF000⟩

/-- The 19 rows in the table's order. -/
def opcodeTable : List TableRow :=
  [⟨0xF000, 0x0000⟩, ⟨0xF020, 0x1000⟩, ⟨0xF020, 0x1020⟩, ⟨0xF000, 0x2000⟩, ⟨0xF000, 0x3000⟩, ⟨0xF800, 0x4800⟩,
   ⟨0xF800, 0x4000⟩, ⟨0xF020, 0x5000⟩, ⟨0xF020, 0x5020⟩, ⟨0xF000, 0x6000⟩, ⟨0xF000, 0x7000⟩, ⟨0xF000, 0x8000⟩,
   ⟨0xF000, 0x9000⟩, ⟨0xF000, 0xA000⟩, ⟨0xF000, 0xB000⟩, ⟨0xF000, 0xC000⟩, ⟨0xF000, 0xD000⟩, ⟨0xF000, 0xE000⟩,
   ⟨0xF000, 0xF000⟩]

/-- The word selects the row. -/
abbrev TableRow.selects (r : TableRow) (w : Word) : Prop := w &&& r.mask = r.pattern

end Sys2Proof
end

