-- ==== Sys2Proof/Config.lean ====
section
/-! DEFINITION. The parameters 00_scope.md R5 leaves open. One value of `Config` stands in the state (assumption 2), so that
a statement about every state is a statement about every choice of the parameters. -/

namespace Sys2Proof

/-- When JSRR reads its base register (43_control_flow.md R113). -/
inductive BaseRead where
  | beforeLink
  | afterLink
deriving DecidableEq, Repr

/-- The open parameters of R5. ORIGIN and IMAGE are arguments of the loader instead, and the input channel is a field of the
state. -/
structure Config where
  /-- KBSR_ADDR, the keyboard-status address. -/
  kbsrAddr : Word
  /-- KBDR_ADDR, the keyboard-data address. -/
  kbdrAddr : Word
  /-- JSRR_BASE_READ. -/
  jsrrBaseRead : BaseRead
  /-- IN_PROMPT, what trap 0x23 writes first. -/
  inPrompt : List Byte
  /-- HALT_NOTICE, what trap 0x25 writes. -/
  haltNotice : List Byte
deriving DecidableEq, Repr

/-- R5: KBDR_ADDR is "different from KBSR_ADDR". -/
abbrev Config.wf (c : Config) : Prop := c.kbsrAddr ≠ c.kbdrAddr

/-- An address whose reads the keyboard answers (20_memory.md R31). -/
abbrev Config.isDevice (c : Config) (addr : Word) : Prop := addr = c.kbsrAddr ∨ addr = c.kbdrAddr

/-- A byte cell of a word behind one of the keyboard's addresses. No statement says what stands there (20_memory.md R35, U4). -/
abbrev Config.isDeviceCell (c : Config) (k : Nat) : Prop := k / 2 = c.kbsrAddr.toNat ∨ k / 2 = c.kbdrAddr.toNat

/-- The parameters the reset state carries. PRESUMED (unsafe): the addresses are the spec's defaults from general knowledge
(R5, D5, assumption 3). DESIGN CHOICE (unsafe): the order of JSRR is the one D10 suggests where one value is wanted
(assumption 4), and both texts are empty (assumption 5). -/
def Config.standard : Config where
  kbsrAddr := 0xFE00
  kbdrAddr := 0xFE02
  jsrrBaseRead := .beforeLink
  inPrompt := []
  haltNotice := []

end Sys2Proof
end

