-- ==== Sys2Proof/Machine/State.lean ====
section
/-! DEFINITION. The state of the machine (10_state.md R11 to R24), the reasons a step can stop, and the state after reset. -/

namespace Sys2Proof.Machine

/-- The condition (10_state.md R15): one value, since exactly one of the three is true at every moment (D20, assumption 21). -/
inductive Cond where
  | n
  | z
  | p
deriving DecidableEq, Repr

/-- The run state (10_state.md R20). -/
inductive RunState where
  | running
  | halted
deriving DecidableEq, Repr

/-- The reason in a diagnostic (60_exceptions.md R134): a name, no number. -/
inductive FatalReason where
  | illegalInstruction
  | unknownTrapVector (vec : Byte)
deriving DecidableEq, Repr

/-- The record a fatal halt leaves (10_state.md R21, D16, assumption 20). -/
structure Diagnostic where
  /-- The address the offending instruction was fetched from. -/
  address : Word
  /-- The raw instruction word. -/
  word : Word
  reason : FatalReason
deriving DecidableEq, Repr

/-- What the next query of the input channel finds (10_state.md R24). DESIGN CHOICE (safe): assumption 6. -/
inductive InputEvent where
  /-- A character is waiting. -/
  | char (c : Byte)
  /-- No character is waiting now; one may arrive later. A poll sees this once; a waiting read waits past it. -/
  | pause
deriving DecidableEq, Repr

/-- What holds once the script of the input channel has run out (10_state.md R24). -/
inductive InputEnd where
  /-- No character will ever arrive. -/
  | exhausted
  /-- None is waiting; the host may still supply one. -/
  | openEnded
deriving DecidableEq, Repr

/-- The input channel: what successive queries find, oldest first, and what holds after that (R24, D22). DESIGN CHOICE (unsafe):
R24's "sequence of bytes" leaves open whether input can be without end; here it is finite, so that no run and no service takes
characters for ever (assumption 6). -/
structure InputChannel where
  script : List InputEvent
  ending : InputEnd
deriving DecidableEq, Repr

/-- Both channels, as a step that does not complete has left them: the characters it took are gone, the bytes it put are there
(40_execute_cycle.md R78). -/
structure Channels where
  input : InputChannel
  output : List Byte
deriving DecidableEq, Repr

/-- Memory in byte cells (DESIGN CHOICE, safe, assumption 1): the word at address `a` is the cells `2 * a` (bits [15:8]) and
`2 * a + 1` (bits [7:0]); a cell not listed is 0x00, as reset leaves it (R19). -/
abbrev Memory := List Host.Cell

/-- The canonical form: cells strictly rising, none of them 0x00, none past the last word. -/
abbrev Memory.wf (m : Memory) : Prop :=
  List.Pairwise (fun x y : Host.Cell => x.1 < y.1) m ∧ ∀ x ∈ m, x.2 ≠ 0#8 ∧ x.1 < 131072

/-- The whole state (10_state.md R23), the environment's channels (R24), the parameters (R5), and the address and word of the
step in progress (40_execute_cycle.md R71). -/
structure State where
  /-- `x[0] .. x[7]` (R11). -/
  regs : Vector Word 8
  /-- The address of the next instruction to fetch (R13). -/
  pc : Word
  /-- The condition (R15). -/
  cc : Cond
  /-- The array of 65536 words (R19). -/
  mem : Memory
  /-- The run state (R20). -/
  run : RunState
  /-- The diagnostic record (R21). -/
  diagnostic : Option Diagnostic
  /-- The input channel (R24). -/
  input : InputChannel
  /-- The bytes put on the output channel, oldest first (R24, R48). -/
  output : List Byte
  /-- `a` of the latest fetch. The model's own field, kept for the diagnostic only (R71, assumption 11). -/
  fetchAddr : Word
  /-- `w` of the latest fetch. The model's own field, kept for the diagnostic only (R71, assumption 11). -/
  fetchWord : Word
  /-- The open parameters (R5, assumption 2). -/
  cfg : Config
deriving DecidableEq, Repr

/-- Why a step has no next state. None of these is an exception of the hardware: its two exceptions are fatal halts, which are
next states (60_exceptions.md R130, R133). `left` holds what the step has already done outside the block; every effect on the
block's own state waits for the step to complete, so the state is the one before the step (R78, D9, assumption 9). -/
inductive Fault where
  /-- A read of the keyboard-data address, GETC or IN waits, and the channel, still open, delivers nothing more unless the host
  supplies it (40_execute_cycle.md R78, U7). Raised by `kbdrRead` and `readChar`. Safe: the model stops where the hardware holds
  the step; after `supplyChar` the same step goes on. -/
  | waitsForInput (left : Channels)
  /-- A read of the keyboard-data address on an exhausted channel: it never completes (20_memory.md R34, D9, U6). Raised by
  `kbdrRead`. Safe: stuck, as the spec says. -/
  | kbdrExhausted (left : Channels)
  /-- PUTS or PUTSP over memory with no terminator: it never completes (60_exceptions.md R141, U13). Raised by `scanString`; `left`
  is a point of the scan from which it only repeats itself. Safe: the model stops where the hardware hangs. Since input is finite
  and a scan of all of memory reads the data address, no state with two different keyboard addresses comes to it: the scan ends
  or waits first (assumptions 6, 10). -/
  | endlessService (left : Channels)
deriving DecidableEq, Repr

/-- Why there is no run, or no meaning. -/
inductive Refusal where
  /-- An instruction whose arm of `exec` has no meaning yet. Raised by `exec` only; no arm does. Safe. -/
  | notModelled (mnemonic : String)
  /-- ImageLoadError: the image runs past 0xFFFF or its file is cut short, and no run exists (60_exceptions.md R148, U16). Raised
  by the loader's operations, never by a step. Safe. -/
  | imageLoadError
deriving DecidableEq, Repr

/-- What a step, a meaning or a loader's operation answers. -/
abbrev Result := Host.Outcome State Fault Refusal

/-- Reset with no image loaded (10_state.md R26, 70_reset_and_hazards.md R160): the pc is 0x0000 "if no loader sets it" (R13). The
input channel is the host's: here empty and exhausted (DESIGN CHOICE, unsafe, assumption 7). The parameters are those of
`Config.standard` (assumptions 3, 4, 5). -/
def State.reset : State where
  regs := Vector.replicate 8 0
  pc := 0
  cc := .z
  mem := []
  run := .running
  diagnostic := none
  input := ⟨[], .exhausted⟩
  output := []
  fetchAddr := 0
  fetchWord := 0
  cfg := Config.standard

end Sys2Proof.Machine
end

