-- ==== Sys2Proof/Machine/Ops.lean ====
section
/-! DEFINITION. The named operations over memory, registers, the channels and the bus, the entry of a fatal halt, and the fetch.
There is no return from an exception to stand beside the entry: `Halted` is terminal, and RTI is Illegal
(60_exceptions.md R147). -/

namespace Sys2Proof.Machine

/-! ## The memory array -/

/-- The byte in cell `k`; a cell not listed is 0x00. -/
def Memory.readByte (m : Memory) (k : Nat) : Byte :=
  match m with
  | [] => 0#8
  | c :: rest => if c.1 = k then c.2 else Memory.readByte rest k

/-- Put `b` in cell `k`, keeping the canonical form. -/
def Memory.writeByte (m : Memory) (k : Nat) (b : Byte) : Memory :=
  m.filter (fun c => c.1 < k) ++ (if b = 0#8 then [] else [(k, b)]) ++ m.filter (fun c => k < c.1)

/-- `mem[addr]`. -/
def Memory.readWord (m : Memory) (addr : Word) : Word :=
  wordOf (m.readByte (2 * addr.toNat)) (m.readByte (2 * addr.toNat + 1))

/-- `mem[addr] <- v`. -/
def Memory.writeWord (m : Memory) (addr : Word) (v : Word) : Memory :=
  (m.writeByte (2 * addr.toNat) (highByte v)).writeByte (2 * addr.toNat + 1) (lowByte v)

/-! ## The registers -/

/-- `x[i]` (00_scope.md R7). -/
def State.reg (s : State) (i : RegIdx) : Word := s.regs[i.toNat]

/-- `x[i] <- v` (00_scope.md R7). -/
def State.setReg (s : State) (i : RegIdx) (v : Word) : State := { s with regs := s.regs.set i.toNat v }

/-- `pc <- t` (00_scope.md R7). -/
def State.setPc (s : State) (t : Word) : State := { s with pc := t }

/-! ## The channels -/

/-- `In.avail()`: a character is waiting now (10_state.md R24). -/
def InputChannel.avail (ch : InputChannel) : Bool :=
  match ch.script with
  | .char _ :: _ => true
  | .pause :: _ => false
  | [] => false

/-- The channel after a poll: it consumes no character, and a moment with nothing waiting has passed (10_state.md R24,
20_memory.md R33; assumption 6). -/
def InputChannel.afterPoll (ch : InputChannel) : InputChannel :=
  match ch.script with
  | .pause :: rest => { ch with script := rest }
  | _ => ch

/-- The first character of a script, waited for, and what is left after it (`wait until In.avail()`, then `In.take()`). -/
def nextChar : List InputEvent → Option (Byte × List InputEvent)
  | [] => none
  | .char c :: rest => some (c, rest)
  | .pause :: rest => nextChar rest

/-- Both channels as they stand. -/
def State.channels (s : State) : Channels := ⟨s.input, s.output⟩

/-- Both channels under a wait that no event of the script ends: the pauses have passed, and what the step has put and taken before
stands (40_execute_cycle.md R78). -/
def State.waiting (s : State) : Channels := ⟨{ s.input with script := [] }, s.output⟩

/-- The channels a stop has left. -/
def Fault.left : Fault → Channels
  | .waitsForInput left => left
  | .kbdrExhausted left => left
  | .endlessService left => left

/-- `Out.put` of each byte in turn (10_state.md R24, 20_memory.md R48). -/
def State.put (s : State) (bs : List Byte) : State := { s with output := s.output ++ bs }

/-! ## The bus -/

/-- `KbsrRead()` (20_memory.md R33). Bits [14:0] are 0: D6, DESIGN CHOICE of the spec, unsafe, assumption 14. -/
def kbsrRead (s : State) : Word × State :=
  (if s.input.avail then 0x8000 else 0x0000, { s with input := s.input.afterPoll })

/-- `KbdrRead()` (20_memory.md R34). A wait nothing ends has no next state (R103, R78; D9, assumption 9). -/
def kbdrRead (s : State) : Except Fault (Word × State) :=
  match nextChar s.input.script with
  | some (c, rest) => .ok (zext8 c, { s with input := { s.input with script := rest } })
  | none =>
    match s.input.ending with
    | .exhausted => .error (.kbdrExhausted s.waiting)
    | .openEnded => .error (.waitsForInput s.waiting)

/-- `MemRead(addr, 1)` (20_memory.md R31): every read the block makes, the fetch included (R36, D8, assumption 16). -/
def memRead (addr : Word) (s : State) : Except Fault (Word × State) :=
  if addr = s.cfg.kbsrAddr then .ok (kbsrRead s)
  else if addr = s.cfg.kbdrAddr then kbdrRead s
  else .ok (s.mem.readWord addr, s)

/-- `MemWrite(addr, 1, v)` (20_memory.md R32, R35): the array takes it at every address, with no device effect (D7,
assumption 15). -/
def memWrite (addr v : Word) (s : State) : State := { s with mem := s.mem.writeWord addr v }

/-- Go on with a value read and the state after the read; a read that has no answer stops the step. -/
def onRead (r : Except Fault (Word × State)) (go : Word → State → Result) : Result :=
  match r with
  | .ok (v, s) => go v s
  | .error f => .fault f

/-- `ReadChar()` (60_exceptions.md R146): waits; 0x00 when the channel is exhausted. -/
def readChar (s : State) : Except Fault (Byte × State) :=
  match nextChar s.input.script with
  | some (c, rest) => .ok (c, { s with input := { s.input with script := rest } })
  | none =>
    match s.input.ending with
    | .exhausted => .ok (0#8, { s with input := { s.input with script := [] } })
    | .openEnded => .error (.waitsForInput s.waiting)

/-! ## Exceptions, halting, the fetch -/

/-- `raise Fatal(reason)` (60_exceptions.md R133): the one operation that takes an exception. The pc stays at `a + 1` (D17,
assumption 20). -/
def raiseFatal (reason : FatalReason) (s : State) : State :=
  { s with diagnostic := some ⟨s.fetchAddr, s.fetchWord, reason⟩, run := .halted }

/-- `run <- Halted`, the clean end (44_trap_and_illegal.md R120). -/
def haltCleanly (s : State) : State := { s with run := .halted }

/-- Fetch and PC increment (40_execute_cycle.md R71): `a` and `w` are kept for the diagnostic. -/
def fetch (s : State) : Except Fault (Word × State) :=
  match memRead s.pc s with
  | .ok (w, s') => .ok (w, { s' with pc := s.pc + 1#16, fetchAddr := s.pc, fetchWord := w })
  | .error f => .error f

/-- Where a word placed in memory is the next one fetched: the pc, or the first address after it that the keyboard does not
answer (assumption 8). -/
def fetchSpot (s : State) : Word :=
  if ¬ s.cfg.isDevice s.pc then s.pc
  else if ¬ s.cfg.isDevice (s.pc + 1#16) then s.pc + 1#16
  else s.pc + 2#16

end Sys2Proof.Machine
end

