-- ==== Sys2Proof/Machine/Flags.lean ====
section
/-! DEFINITION. The condition computed from a value, and the write of a destination register with it (10_state.md R17, R18). -/

namespace Sys2Proof.Machine

/-- The condition of a 16-bit value read as two's-complement (10_state.md R17, 41_operate.md R92). -/
def condOf (v : Word) : Cond :=
  if v.getLsbD 15 then .n else if v = 0#16 then .z else .p

/-- `setcc(v)` (R17). -/
def State.setcc (s : State) (v : Word) : State := { s with cc := condOf v }

/-- `x[DR] <- v; setcc(v)`: how each of the seven flag-writing instructions ends (R18). -/
def State.writeDest (s : State) (dr : RegIdx) (v : Word) : State := (s.setReg dr v).setcc v

/-- Whether a branch that requests `n`, `z`, `p` is taken under `cc` (43_control_flow.md R110). -/
def taken (n z p : Bool) (cc : Cond) : Bool :=
  match cc with
  | .n => n
  | .z => z
  | .p => p

end Sys2Proof.Machine
end

