-- ==== Sys2Proof/Machine/Operands.lean ====
section
/-! DEFINITION. The operand forms: how an effective address is formed (42_data_movement.md R95), and the ALU
(41_operate.md R85). -/

namespace Sys2Proof.Machine

/-- PC-relative: the incremented pc plus the offset; also the pointer's address of the indirect mode, the value of LEA and the
target of BR and JSR (R95). -/
def pcRelative (off : Word) (s : State) : Word := s.pc + off

/-- Base plus offset (R95). -/
def baseOffset (base : RegIdx) (off : Word) (s : State) : Word := s.reg base + off

/-- ALUOP ADD (R85): wraps, no status. -/
def aluAdd (x y : Word) : Word := x + y

/-- ALUOP AND (R85). -/
def aluAnd (x y : Word) : Word := x &&& y

/-- ALUOP NOT (R85). -/
def aluNot (x : Word) : Word := ~~~x

end Sys2Proof.Machine
end

