-- ==== Sys2Proof/Machine/ControlFlow.lean ====
section
/-! DEFINITION. BR, JMP, JSR and JSRR (43_control_flow.md). -/

namespace Sys2Proof.Machine

/-- BR (R110). -/
def execBr (n z p : Bool) (off : Word) (s : State) : Result :=
  .next (if taken n z p s.cc then s.setPc (pcRelative off s) else s)

/-- JMP, and RET when `base` is 7 (R111). -/
def execJmp (base : RegIdx) (s : State) : Result :=
  .next (s.setPc (s.reg base))

/-- JSR (R112): link and target both from the incremented pc. -/
def execJsr (off : Word) (s : State) : Result :=
  .next ((s.setReg 7 s.pc).setPc (pcRelative off s))

/-- JSRR (R113): the order of base read and link write is JSRR_BASE_READ, and matters for `base` 7 only (D10,
assumption 4). -/
def execJsrr (base : RegIdx) (s : State) : Result :=
  let linked := s.setReg 7 s.pc
  match s.cfg.jsrrBaseRead with
  | .beforeLink => .next (linked.setPc (s.reg base))
  | .afterLink => .next (linked.setPc (linked.reg base))

end Sys2Proof.Machine
end

