-- ==== Sys2Proof/Machine/DataMovement.lean ====
section
/-! DEFINITION. LD, LDI, LDR, LEA, ST, STI, STR (42_data_movement.md). -/

namespace Sys2Proof.Machine

/-- `v <- MemRead(ea, 1); x[DR] <- v; setcc(v)`: the end of every load (R96 to R98). -/
def loadInto (dr : RegIdx) (ea : Word) (s : State) : Result :=
  onRead (memRead ea s) fun v s' => .next (s'.writeDest dr v)

/-- LD (R96). -/
def execLd (dr : RegIdx) (off : Word) (s : State) : Result :=
  loadInto dr (pcRelative off s) s

/-- LDI (R97): the pointer, then the data. -/
def execLdi (dr : RegIdx) (off : Word) (s : State) : Result :=
  onRead (memRead (pcRelative off s) s) fun ptr s' => loadInto dr ptr s'

/-- LDR (R98). -/
def execLdr (dr base : RegIdx) (off : Word) (s : State) : Result :=
  loadInto dr (baseOffset base off s) s

/-- LEA (R99): no memory access; the flags are set from the address. -/
def execLea (dr : RegIdx) (off : Word) (s : State) : Result :=
  .next (s.writeDest dr (pcRelative off s))

/-- ST (R100). -/
def execSt (sr : RegIdx) (off : Word) (s : State) : Result :=
  .next (memWrite (pcRelative off s) (s.reg sr) s)

/-- STI (R101): the pointer, then the write through it. -/
def execSti (sr : RegIdx) (off : Word) (s : State) : Result :=
  onRead (memRead (pcRelative off s) s) fun ptr s' => .next (memWrite ptr (s.reg sr) s')

/-- STR (R102). -/
def execStr (sr base : RegIdx) (off : Word) (s : State) : Result :=
  .next (memWrite (baseOffset base off s) (s.reg sr) s)

end Sys2Proof.Machine
end

