-- ==== Sys2Proof/Machine/Operate.lean ====
section
/-! DEFINITION. ADD, AND and NOT (41_operate.md). -/

namespace Sys2Proof.Machine

/-- ADD, register form (R86). -/
def execAddReg (dr sr1 sr2 : RegIdx) (s : State) : Result :=
  .next (s.writeDest dr (aluAdd (s.reg sr1) (s.reg sr2)))

/-- ADD, immediate form (R87). -/
def execAddImm (dr sr1 : RegIdx) (imm : Word) (s : State) : Result :=
  .next (s.writeDest dr (aluAdd (s.reg sr1) imm))

/-- AND, register form (R88). -/
def execAndReg (dr sr1 sr2 : RegIdx) (s : State) : Result :=
  .next (s.writeDest dr (aluAnd (s.reg sr1) (s.reg sr2)))

/-- AND, immediate form (R89). -/
def execAndImm (dr sr1 : RegIdx) (imm : Word) (s : State) : Result :=
  .next (s.writeDest dr (aluAnd (s.reg sr1) imm))

/-- NOT (R90). -/
def execNot (dr sr : RegIdx) (s : State) : Result :=
  .next (s.writeDest dr (aluNot (s.reg sr)))

end Sys2Proof.Machine
end

