-- ==== Sys2Proof/Machine/TrapServices.lean ====
section
/-! DEFINITION. The TrapDispatcher (60_exceptions.md R138 to R146): the six native services and the answer to every other
vector. -/

namespace Sys2Proof.Machine

/-- What the dispatcher answers the TRAP instruction (R138). -/
inductive TrapOutcome where
  | goOn
  | halt
  | unknownVector
deriving DecidableEq, Repr

/-- GETC, vector 0x20 (R139): the high byte of R0 is cleared (D12, assumption 18). -/
def serviceGetc (s : State) : Except Fault State :=
  match readChar s with
  | .ok (c, s') => .ok (s'.setReg 0 (zext8 c))
  | .error f => .error f

/-- OUT, vector 0x21 (R140). -/
def serviceOut (s : State) : Except Fault State := .ok (s.put [lowByte (s.reg 0)])

/-- What PUTS does with one word (R141): the bytes it writes, and whether it stops. -/
def putsWord (w : Word) : List Byte × Bool :=
  if w = 0#16 then ([], true) else ([lowByte w], false)

/-- What PUTSP does with one word (R143): low byte first; a zero byte stops it. -/
def putspWord (w : Word) : List Byte × Bool :=
  if lowByte w = 0#8 then ([], true)
  else if highByte w = 0#8 then ([lowByte w], true)
  else ([lowByte w, highByte w], false)

/-- The loop of PUTS and PUTSP (R141, R143, D15): read a word at `p` through the bus, write its bytes, stop or go on at
`p + 1`. The first argument bounds the words read. -/
def scanString (word : Word → List Byte × Bool) : Nat → Word → State → Except Fault State
  | 0, _, s => .error (.endlessService s.channels)
  | fuel + 1, p, s =>
    match memRead p s with
    | .error f => .error f
    | .ok (w, s') =>
      if (word w).2 then .ok (s'.put (word w).1)
      else scanString word fuel (p + 1#16) (s'.put (word w).1)

/-- More words than any string that ends can have: 65536 words bring `p` back to where it was, and if the input channel has
not moved in between, the scan repeats for ever; the channel moves at most once for each event of its script. So a scan that
uses all of this never ends (DESIGN CHOICE, safe, assumption 10). -/
def scanBound (s : State) : Nat := 65536 * (s.input.script.length + 1)

/-- PUTS, vector 0x22 (R141). -/
def servicePuts (s : State) : Except Fault State := scanString putsWord (scanBound s) (s.reg 0) s

/-- IN, vector 0x23 (R142): prompt, read, echo, store. The sentinel is echoed too (D14, assumption 19). -/
def serviceIn (s : State) : Except Fault State :=
  match readChar (s.put s.cfg.inPrompt) with
  | .ok (c, s') => .ok ((s'.put [c]).setReg 0 (zext8 c))
  | .error f => .error f

/-- PUTSP, vector 0x24 (R143). -/
def servicePutsp (s : State) : Except Fault State := scanString putspWord (scanBound s) (s.reg 0) s

/-- HALT, vector 0x25 (R144): the notice; the TRAP instruction sets the run state. -/
def serviceHalt (s : State) : Except Fault State := .ok (s.put s.cfg.haltNotice)

/-- A service's state with the outcome it returns. -/
def answering (outcome : TrapOutcome) (r : Except Fault State) : Except Fault (TrapOutcome × State) :=
  match r with
  | .ok s => .ok (outcome, s)
  | .error f => .error f

/-- `TrapDispatch(vector)` (R138 to R145). The dispatcher never writes the pc, `cc`, R1 to R7 or memory. -/
def trapDispatch (vec : Byte) (s : State) : Except Fault (TrapOutcome × State) :=
  match vec with
  | 0x20#8 => answering .goOn (serviceGetc s)
  | 0x21#8 => answering .goOn (serviceOut s)
  | 0x22#8 => answering .goOn (servicePuts s)
  | 0x23#8 => answering .goOn (serviceIn s)
  | 0x24#8 => answering .goOn (servicePutsp s)
  | 0x25#8 => answering .halt (serviceHalt s)
  | _ => .ok (.unknownVector, s)

end Sys2Proof.Machine
end

