-- ==== Sys2Proof/Machine/TrapIllegal.lean ====
section
/-! DEFINITION. TRAP and the two Illegal opcodes (44_trap_and_illegal.md). -/

namespace Sys2Proof.Machine

/-- TRAP (R120): acts on the dispatcher's outcome. R7 is not written (D11, assumption 17). -/
def execTrap (vec : Byte) (s : State) : Result :=
  match trapDispatch vec s with
  | .error f => .fault f
  | .ok (.goOn, s') => .next s'
  | .ok (.halt, s') => .next (haltCleanly s')
  | .ok (.unknownVector, s') => .next (raiseFatal (.unknownTrapVector vec) s')

/-- RTI, opcode 1000 (R121). The diagnostic's word is the one the step fetched, which is `raw` when the step decoded it. -/
def execRti (_raw : Word) (s : State) : Result := .next (raiseFatal .illegalInstruction s)

/-- The reserved opcode 1101 (R122). -/
def execReserved (_raw : Word) (s : State) : Result := .next (raiseFatal .illegalInstruction s)

end Sys2Proof.Machine
end

