-- ==== Sys2Proof/Machine/Step.lean ====
section
/-! DEFINITION. One step (40_execute_cycle.md R70, R71), and the placing of one instruction where the next step fetches. -/

namespace Sys2Proof.Machine

/-- `step()`: nothing when Halted (R70); else fetch, increment the pc, decode, execute (R71). -/
def step (s : State) : Host.Outcome State Fault Refusal :=
  match s.run with
  | .halted => .next s
  | .running =>
    match fetch s with
    | .ok (w, s') => exec (decodeWord w) s'
    | .error f => .fault f

/-- `s` with the instruction whose bits are `w` stored where the next step fetches. It stands for the loader (R161, assumption
8): the machine is Running, and the pc moves past the keyboard's addresses, where a word in the array is never fetched. -/
def State.withFetchWord (s : State) (nbits w : Nat) : State :=
  { s with
    pc := fetchSpot s
    run := .running
    mem := s.mem.writeWord (fetchSpot s) (BitVec.ofNat 16 (w % 2 ^ nbits)) }

end Sys2Proof.Machine
end

