-- ==== Sys2Proof/Machine/Datapath.lean ====
section
/-! DEFINITION. The datapath and its control table (40_execute_cycle.md R75, R76): the same machine a second time, as elements that
work on the raw word under one row of selections for each form. `exec` is the model; the obligation DatapathRunsTheWord says that
the two agree. The names are the spec's (D21). -/

namespace Sys2Proof.Machine

/-- The operand-B mux. -/
inductive BSel where
  | sr2
  | imm5
deriving DecidableEq, Repr

/-- What the ALU does. -/
inductive AluOp where
  | add
  | and
  | not
deriving DecidableEq, Repr

/-- The base of the address adder. -/
inductive ABase where
  | pc
  | baseR
deriving DecidableEq, Repr

/-- The offset of the address adder. -/
inductive AOff where
  | off9
  | off6
  | off11
deriving DecidableEq, Repr

/-- What the memory sequencer does: nothing, one read, two reads, a write, a read and a write through it. -/
inductive MSeq where
  | none
  | r
  | rr
  | w
  | rw
deriving DecidableEq, Repr

/-- The register written. -/
inductive WSel where
  | dr
  | r7
deriving DecidableEq, Repr

/-- The write-back mux. -/
inductive WSrc where
  | alu
  | m1
  | m2
  | ea
  | pc
deriving DecidableEq, Repr

/-- The PC mux. -/
inductive PcSel where
  | pc
  | ea
  | eaIfTaken
  | baseR
deriving DecidableEq, Repr

/-- One row of R76. Where the table says that a selection is immaterial, the row holds the one standing here as its default. -/
structure Control where
  bsel : BSel := .sr2
  aluOp : AluOp := .add
  abase : ABase := .pc
  aoff : AOff := .off9
  mseq : MSeq := .none
  wen : Bool := false
  wsel : WSel := .dr
  wsrc : WSrc := .alu
  ccen : Bool := false
  pcsel : PcSel := .pc
  trapreq : Bool := false
  fatal : Bool := false
deriving DecidableEq, Repr

/-- The control table (R76). -/
def controlRow : Instr → Control
  | .addReg _ _ _ => { bsel := .sr2, aluOp := .add, wen := true, wsrc := .alu, ccen := true }
  | .addImm _ _ _ => { bsel := .imm5, aluOp := .add, wen := true, wsrc := .alu, ccen := true }
  | .andReg _ _ _ => { bsel := .sr2, aluOp := .and, wen := true, wsrc := .alu, ccen := true }
  | .andImm _ _ _ => { bsel := .imm5, aluOp := .and, wen := true, wsrc := .alu, ccen := true }
  | .notReg _ _ => { aluOp := .not, wen := true, wsrc := .alu, ccen := true }
  | .ld _ _ => { abase := .pc, aoff := .off9, mseq := .r, wen := true, wsrc := .m1, ccen := true }
  | .ldi _ _ => { abase := .pc, aoff := .off9, mseq := .rr, wen := true, wsrc := .m2, ccen := true }
  | .ldr _ _ _ => { abase := .baseR, aoff := .off6, mseq := .r, wen := true, wsrc := .m1, ccen := true }
  | .lea _ _ => { abase := .pc, aoff := .off9, wen := true, wsrc := .ea, ccen := true }
  | .st _ _ => { abase := .pc, aoff := .off9, mseq := .w }
  | .sti _ _ => { abase := .pc, aoff := .off9, mseq := .rw }
  | .str _ _ _ => { abase := .baseR, aoff := .off6, mseq := .w }
  | .br _ _ _ _ => { abase := .pc, aoff := .off9, pcsel := .eaIfTaken }
  | .jmp _ => { pcsel := .baseR }
  | .jsr _ => { abase := .pc, aoff := .off11, wen := true, wsel := .r7, wsrc := .pc, pcsel := .ea }
  | .jsrr _ => { wen := true, wsel := .r7, wsrc := .pc, pcsel := .baseR }
  | .trap _ => { trapreq := true }
  | .rti _ => { fatal := true }
  | .reserved _ => { fatal := true }

/-- The ALU on its first operand and the operand-B mux's (R75). -/
def aluOut (c : Control) (w : Word) (s : State) : Word :=
  let b := match c.bsel with
    | .sr2 => s.reg (fieldSR2 w)
    | .imm5 => fieldImm5 w
  match c.aluOp with
  | .add => aluAdd (s.reg (fieldBase w)) b
  | .and => aluAnd (s.reg (fieldBase w)) b
  | .not => aluNot (s.reg (fieldBase w))

/-- The address adder, EA (R75). -/
def adderOut (c : Control) (w : Word) (s : State) : Word :=
  (match c.abase with
    | .pc => s.pc
    | .baseR => s.reg (fieldBase w))
  + match c.aoff with
    | .off9 => fieldOff9 w
    | .off6 => fieldOff6 w
    | .off11 => fieldOff11 w

/-- The memory sequencer (R75): M1, M2 and the state after its accesses; a value no read gives is 0 and not selected. -/
def memSequence (m : MSeq) (ea data : Word) (s : State) : Except Fault (Word × Word × State) :=
  match m with
  | .none => .ok (0, 0, s)
  | .r =>
    match memRead ea s with
    | .ok (m1, s1) => .ok (m1, 0, s1)
    | .error f => .error f
  | .rr =>
    match memRead ea s with
    | .ok (m1, s1) =>
      match memRead m1 s1 with
      | .ok (m2, s2) => .ok (m1, m2, s2)
      | .error f => .error f
    | .error f => .error f
  | .w => .ok (0, 0, memWrite ea data s)
  | .rw =>
    match memRead ea s with
    | .ok (m1, s1) => .ok (m1, 0, memWrite m1 data s1)
    | .error f => .error f

/-- The write-back mux, WDATA (R75). -/
def writeData (c : Control) (w m1 m2 : Word) (s : State) : Word :=
  match c.wsrc with
  | .alu => aluOut c w s
  | .m1 => m1
  | .m2 => m2
  | .ea => adderOut c w s
  | .pc => s.pc

/-- The register file's write port and the flag logic (R75). -/
def writeBack (c : Control) (w data : Word) (s : State) : State :=
  let s1 := if c.wen then
      s.setReg (match c.wsel with
        | .dr => fieldDR w
        | .r7 => 7) data
    else s
  if c.ccen then s1.setcc data else s1

/-- The PC mux with the branch test (R75), from the state before the write-back; the base register is read before or after the
link by JSRR_BASE_READ (R113). -/
def nextPc (c : Control) (w : Word) (before after : State) : Word :=
  match c.pcsel with
  | .pc => before.pc
  | .ea => adderOut c w before
  | .eaIfTaken =>
    if w.getLsbD 11 && before.cc == .n || w.getLsbD 10 && before.cc == .z || w.getLsbD 9 && before.cc == .p then
      adderOut c w before
    else before.pc
  | .baseR =>
    match before.cfg.jsrrBaseRead with
    | .beforeLink => before.reg (fieldBase w)
    | .afterLink => after.reg (fieldBase w)

/-- The trap port (R75, R138): the dispatcher writes what its service writes, and its outcome drives run and the fatal logic. -/
def trapPort (w : Word) (s : State) : Result :=
  match trapDispatch (lowByte w) s with
  | .error f => .fault f
  | .ok (.goOn, s') => .next s'
  | .ok (.halt, s') => .next (haltCleanly s')
  | .ok (.unknownVector, s') => .next (raiseFatal (.unknownTrapVector (lowByte w)) s')

/-- The execute phase of a word under a row of control: sequencer, write-back, PC; or the fatal logic; or the trap port. -/
def datapath (c : Control) (w : Word) (s : State) : Result :=
  if c.fatal then .next (raiseFatal .illegalInstruction s)
  else if c.trapreq then trapPort w s
  else
    match memSequence c.mseq (adderOut c w s) (s.reg (fieldDR w)) s with
    | .error f => .fault f
    | .ok (m1, m2, s1) =>
      let s2 := writeBack c w (writeData c w m1 m2 s) s1
      .next (s2.setPc (nextPc c w s s2))

end Sys2Proof.Machine
end

