-- ==== Sys2Proof/Machine/HostPort.lean ====
section
/-! DEFINITION. What the host does to the block (70_reset_and_hazards.md R160, R161, R170): load an image, run with a
cancellation flag, supply input. -/

namespace Sys2Proof.Machine

/-! ## The loader -/

/-- Copy words into the array from `addr` up (20_memory.md R45). -/
def Memory.copyIn (m : Memory) (addr : Word) : List Word → Memory
  | [] => m
  | w :: ws => Memory.copyIn (m.writeWord addr w) (addr + 1#16) ws

/-- `load(origin, words)` (R45): the test is on the unbounded sum, so the copy never wraps. -/
def load (origin : Word) (words : List Word) (s : State) : Result :=
  if origin.toNat + words.length > 65536 then .refused .imageLoadError
  else .next { s with mem := s.mem.copyIn origin words }

/-- `reset(ORIGIN, IMAGE)` (R160): the reset state, the image loaded, the pc at the origin. -/
def bootImage (origin : Word) (words : List Word) : Result :=
  match load origin words State.reset with
  | .next s => .next (s.setPc origin)
  | .fault f => .fault f
  | .refused r => .refused r

/-- The words of an even number of bytes, high byte first (R161). -/
def wordsOfBytes : List Byte → Option (List Word)
  | [] => some []
  | [_] => none
  | hi :: lo :: rest => (wordsOfBytes rest).map (wordOf hi lo :: ·)

/-- An image file: the origin word and the words after it (R161); a file of odd length or without an origin word has none. -/
def parseImage (file : List Byte) : Option (Word × List Word) :=
  match wordsOfBytes file with
  | some (origin :: words) => some (origin, words)
  | some [] => none
  | none => none

/-- The loader's sequence (R161). A file cut short is an ImageLoadError (60_exceptions.md R148). -/
def bootFile (file : List Byte) : Result :=
  match parseImage file with
  | some (origin, words) => bootImage origin words
  | none => .refused .imageLoadError

/-! ## Running with cancellation -/

/-- How `run()` ends, or why it has not ended yet (40_execute_cycle.md R73). -/
inductive RunEnd where
  /-- The host's flag was seen between two steps (60_exceptions.md R136). -/
  | cancelled (s : State)
  /-- The run state is Halted. -/
  | stopped (s : State)
  /-- The step from `s` has no next state: the block still holds `s`, and `f.left` says what the host has seen of the step on the
  channels (R78). -/
  | held (f : Fault) (s : State)
  /-- `step` refuses nothing, so this never happens. -/
  | refused (r : Refusal)
  /-- The samples of the flag given are used up; the run goes on from `s`. -/
  | goingOn (s : State)
deriving DecidableEq, Repr

/-- `run()` (R73): the flag's value at each test, in order, decides how long it runs. A step that waits never sees the flag
(R136). -/
def runLoop : List Bool → State → RunEnd
  | [], s => .goingOn s
  | cancel :: later, s =>
    if cancel then .cancelled s
    else
      match s.run with
      | .halted => .stopped s
      | .running =>
        match step s with
        | .next s' => runLoop later s'
        | .fault f => .held f s
        | .refused r => .refused r

/-- A number of steps one after another, as long as each has a next state. -/
def stepMany : Nat → State → Result
  | 0, s => .next s
  | k + 1, s =>
    match step s with
    | .next s' => stepMany k s'
    | .fault f => .fault f
    | .refused r => .refused r

/-! ## Input -/

/-- The host supplies one character (R170). A held step takes it "as if the character had been there from the start" (R78): the
same step, taken again from the same state with the character in its script. On a channel declared exhausted none ever arrives
(10_state.md R24). DESIGN CHOICE (unsafe): R170 says only that the character "becomes visible to `In.avail()`", not when; here it
stands at the end of the script, behind the pauses still in it, so that many status reads answer 'not waiting' first
(assumption 25). -/
def supplyChar (c : Byte) (s : State) : State :=
  match s.input.ending with
  | .openEnded => { s with input := { s.input with script := s.input.script ++ [.char c] } }
  | .exhausted => s

/-- The host declares the input exhausted: what it has supplied can still be read (R170). -/
def declareExhausted (s : State) : State := { s with input := { s.input with ending := .exhausted } }

end Sys2Proof.Machine
end

