-- ==== Sys2Proof/Safety.lean ====
section
/-! DEFINITION. The terms the statements use: which register an instruction writes, which instructions set the flags, what stays
the same, the invariant of the machine, and which runs are good. -/

namespace Sys2Proof.Machine

/-! ## What an instruction may change -/

/-- The register an instruction writes (10_state.md R12). -/
def destOf : Instr → Option RegIdx
  | .addReg dr _ _ => some dr
  | .addImm dr _ _ => some dr
  | .andReg dr _ _ => some dr
  | .andImm dr _ _ => some dr
  | .notReg dr _ => some dr
  | .ld dr _ => some dr
  | .ldi dr _ => some dr
  | .ldr dr _ _ => some dr
  | .lea dr _ => some dr
  | .jsr _ => some 7
  | .jsrr _ => some 7
  | .trap vec => if vec = 0x20 ∨ vec = 0x23 then some 0 else none
  | .br _ _ _ _ => none
  | .st _ _ => none
  | .sti _ _ => none
  | .str _ _ _ => none
  | .jmp _ => none
  | .rti _ => none
  | .reserved _ => none

/-- The destination of the seven instructions that call `setcc`, none for the others (10_state.md R18). -/
def flagDestOf : Instr → Option RegIdx
  | .addReg dr _ _ => some dr
  | .addImm dr _ _ => some dr
  | .andReg dr _ _ => some dr
  | .andImm dr _ _ => some dr
  | .notReg dr _ => some dr
  | .ld dr _ => some dr
  | .ldi dr _ => some dr
  | .ldr dr _ _ => some dr
  | .lea dr _ => some dr
  | .jsr _ => none
  | .jsrr _ => none
  | .trap _ => none
  | .br _ _ _ _ => none
  | .st _ _ => none
  | .sti _ _ => none
  | .str _ _ _ => none
  | .jmp _ => none
  | .rti _ => none
  | .reserved _ => none

/-- ST, STI and STR, the instructions that write memory (20_memory.md R39, 40_execute_cycle.md R76). -/
def isStore : Instr → Bool
  | .st _ _ => true
  | .sti _ _ => true
  | .str _ _ _ => true
  | .addReg _ _ _ => false
  | .addImm _ _ _ => false
  | .andReg _ _ _ => false
  | .andImm _ _ _ => false
  | .notReg _ _ => false
  | .ld _ _ => false
  | .ldi _ _ => false
  | .ldr _ _ _ => false
  | .lea _ _ => false
  | .jsr _ => false
  | .jsrr _ => false
  | .trap _ => false
  | .br _ _ _ _ => false
  | .jmp _ => false
  | .rti _ => false
  | .reserved _ => false

/-- BR, JMP, JSR and JSRR, the instructions that write the pc in their execute phase (10_state.md R14). -/
def isTransfer : Instr → Bool
  | .br _ _ _ _ => true
  | .jmp _ => true
  | .jsr _ => true
  | .jsrr _ => true
  | .st _ _ => false
  | .sti _ _ => false
  | .str _ _ _ => false
  | .addReg _ _ _ => false
  | .addImm _ _ _ => false
  | .andReg _ _ _ => false
  | .andImm _ _ _ => false
  | .notReg _ _ => false
  | .ld _ _ => false
  | .ldi _ _ => false
  | .ldr _ _ _ => false
  | .lea _ _ => false
  | .trap _ => false
  | .rti _ => false
  | .reserved _ => false

/-- A vector the dispatcher recognises (60_exceptions.md R138). -/
abbrev knownVector (vec : Byte) : Prop := 0x20#8 ≤ vec ∧ vec ≤ 0x25#8

/-- The instructions that end the run: the HALT trap, every unknown vector, the two Illegal opcodes (10_state.md R20). -/
abbrev endsRun (i : Instr) : Prop :=
  i = .trap 0x25 ∨ (∃ vec, i = .trap vec ∧ ¬ knownVector vec) ∨ ∃ raw, i = .rti raw ∨ i = .reserved raw

/-! ## What stays the same from `s` to `t` -/

/-- Every general register. -/
abbrev sameRegs (s t : State) : Prop := ∀ r, t.reg r = s.reg r

/-- Every general register but `d`. -/
abbrev sameRegsBut (d : RegIdx) (s t : State) : Prop := ∀ r, r ≠ d → t.reg r = s.reg r

/-- Every byte of memory, the words behind the keyboard's addresses aside (R35). -/
abbrev sameMemory (s t : State) : Prop := ∀ k, ¬ s.cfg.isDeviceCell k → t.mem.readByte k = s.mem.readByte k

/-- Every byte of memory outside the word at `addr`, the words behind the keyboard's addresses aside (R35). -/
abbrev sameMemoryBut (addr : Word) (s t : State) : Prop :=
  ∀ k, ¬ s.cfg.isDeviceCell k → k ≠ 2 * addr.toNat → k ≠ 2 * addr.toNat + 1 → t.mem.readByte k = s.mem.readByte k

/-- The run state, the diagnostic, the record of the fetch and the parameters: the engine's own state. -/
abbrev sameEngine (s t : State) : Prop :=
  t.run = s.run ∧ t.diagnostic = s.diagnostic ∧ t.fetchAddr = s.fetchAddr ∧ t.fetchWord = s.fetchWord ∧ t.cfg = s.cfg

/-- Both channels. -/
abbrev sameChannels (s t : State) : Prop := t.input = s.input ∧ t.output = s.output

/-! ## The invariant of the machine -/

/-- The diagnostic is one its word gives rise to (60_exceptions.md R131, R132): an Illegal opcode, or a TRAP whose vector, the
low byte of the word, is not recognised. -/
def Diagnostic.explained (d : Diagnostic) : Prop :=
  match d.reason with
  | .illegalInstruction => hasOpcode 0b1000 d.word ∨ hasOpcode 0b1101 d.word
  | .unknownTrapVector vec => hasOpcode 0b1111 d.word ∧ vec = lowByte d.word ∧ ¬ knownVector vec

/-- What holds of every state a run reaches: memory in canonical form; a diagnostic only when Halted, and one its word
explains (10_state.md R20, R21). -/
structure State.Inv (s : State) : Prop where
  memory : s.mem.wf
  running : s.run = .running → s.diagnostic = none
  explained : ∀ d, s.diagnostic = some d → d.explained

/-! ## Good and bad ends -/

/-- The clean end of a run (40_execute_cycle.md R80). -/
abbrev State.endedCleanly (s : State) : Prop := s.run = .halted ∧ s.diagnostic = none

/-- The fatal end of a run (40_execute_cycle.md R80). -/
abbrev State.endedFatally (s : State) : Prop := s.run = .halted ∧ s.diagnostic ≠ none

/-! ## States a program cannot tell apart -/

/-- Two memories that agree at every address but the keyboard's two: no read returns the words behind those (20_memory.md
R35). -/
abbrev sameVisible (c : Config) (m m' : Memory) : Prop := ∀ addr, ¬ c.isDevice addr → m.readWord addr = m'.readWord addr

/-- Two states equal but for the words behind the keyboard's addresses. -/
structure Alike (s t : State) : Prop where
  visible : sameVisible s.cfg s.mem t.mem
  rest : t = { s with mem := t.mem }

/-- Two results alike: next states that are alike, or the same stop. -/
inductive AlikeResults : Result → Result → Prop where
  | next {s t : State} (h : Alike s t) : AlikeResults (.next s) (.next t)
  | fault (f : Fault) : AlikeResults (.fault f) (.fault f)
  | refused (r : Refusal) : AlikeResults (.refused r) (.refused r)

/-- A result with its next state changed. -/
def mapNext (g : State → State) : Result → Result
  | .next s => .next (g s)
  | .fault f => .fault f
  | .refused r => .refused r

end Sys2Proof.Machine
end

