-- ==== Sys2Proof/Certificates/Slice0/Obligations.lean ====
section
/-! DEFINITION. The statements for the provers. A docstring that names the model's choice, or the spec's own, says on which log
entry the statement rests. No statement says what the two words behind the keyboard's addresses hold (R35, U4, assumption 15):
`sameMemory` and `sameMemoryBut` leave their bytes out, `Alike` leaves the words out, and what is stored at or loaded to those
addresses has no clause. -/

open Sys2Proof Sys2Proof.Machine

/-! ## Decoding and encoding -/

/-- Words of 95_test_vectors.md V1 to V9 decode as that file says: at least one word of every family. The encodings are the
spec's own, from general knowledge (D2, D3, K10; assumption 12). -/
def Obligations.SpecWordsDecode : Prop :=
  decodeWord 0x1065 = .addImm 0 1 0x0005 ∧ decodeWord 0x127F = .addImm 1 1 0xFFFF
    ∧ decodeWord 0x1042 = .addReg 0 1 2 ∧ decodeWord 0x105A = .addReg 0 1 2
    ∧ decodeWord 0x03FD = .br false false true 0xFFFD
    ∧ decodeWord 0x4C00 = .jsr 0xFC00 ∧ decodeWord 0x4080 = .jsrr 2 ∧ decodeWord 0x47FF = .jsrr 7
    ∧ decodeWord 0x647F = .ldr 2 1 0xFFFF ∧ decodeWord 0x7460 = .str 2 1 0xFFE0
    ∧ decodeWord 0xF025 = .trap 0x25 ∧ decodeWord 0xFF25 = .trap 0x25
    ∧ decodeWord 0x8FFF = .rti 0x8FFF ∧ decodeWord 0xDABC = .reserved 0xDABC
    ∧ decodeWord 0x9B3F = .notReg 5 4 ∧ decodeWord 0xCEBF = .jmp 2 ∧ decodeWord 0xE1FE = .lea 0 0xFFFE
    ∧ decodeWord 0xA405 = .ldi 2 0x0005 ∧ decodeWord 0xB601 = .sti 3 0x0001
    ∧ decodeWord 0x2E07 = .ld 7 0x0007 ∧ decodeWord 0x3A0C = .st 5 0x000C

/-- R56 format by format: every word of a format, whatever its ignored bits hold, gives the fields at their places. Field
positions and opcode numbers are the spec's own, from general knowledge (D2, D3; assumption 12). -/
def Obligations.EveryFormatDecodesFieldByField : Prop :=
  ∀ w : Word,
    let dr := w.extractLsb' 9 3
    let base := w.extractLsb' 6 3
    let imm5 := (w.extractLsb' 0 5).signExtend 16
    let off6 := (w.extractLsb' 0 6).signExtend 16
    let off9 := (w.extractLsb' 0 9).signExtend 16
    let off11 := (w.extractLsb' 0 11).signExtend 16
    (hasOpcode 0b0000 w → decodeWord w = .br (w.getLsbD 11) (w.getLsbD 10) (w.getLsbD 9) off9)
    ∧ (hasOpcode 0b0001 w → w.getLsbD 5 = false → decodeWord w = .addReg dr base (w.extractLsb' 0 3))
    ∧ (hasOpcode 0b0001 w → w.getLsbD 5 = true → decodeWord w = .addImm dr base imm5)
    ∧ (hasOpcode 0b0010 w → decodeWord w = .ld dr off9)
    ∧ (hasOpcode 0b0011 w → decodeWord w = .st dr off9)
    ∧ (hasOpcode 0b0100 w → w.getLsbD 11 = true → decodeWord w = .jsr off11)
    ∧ (hasOpcode 0b0100 w → w.getLsbD 11 = false → decodeWord w = .jsrr base)
    ∧ (hasOpcode 0b0101 w → w.getLsbD 5 = false → decodeWord w = .andReg dr base (w.extractLsb' 0 3))
    ∧ (hasOpcode 0b0101 w → w.getLsbD 5 = true → decodeWord w = .andImm dr base imm5)
    ∧ (hasOpcode 0b0110 w → decodeWord w = .ldr dr base off6)
    ∧ (hasOpcode 0b0111 w → decodeWord w = .str dr base off6)
    ∧ (hasOpcode 0b1000 w → decodeWord w = .rti w)
    ∧ (hasOpcode 0b1001 w → decodeWord w = .notReg dr base)
    ∧ (hasOpcode 0b1010 w → decodeWord w = .ldi dr off9)
    ∧ (hasOpcode 0b1011 w → decodeWord w = .sti dr off9)
    ∧ (hasOpcode 0b1100 w → decodeWord w = .jmp base)
    ∧ (hasOpcode 0b1101 w → decodeWord w = .reserved w)
    ∧ (hasOpcode 0b1110 w → decodeWord w = .lea dr off9)
    ∧ (hasOpcode 0b1111 w → decodeWord w = .trap (w.extractLsb' 0 8))

/-- Decoding an encoded well-formed instruction gives it back, from its word and from its bytes. Both sides take the opcode
numbers and field positions of D2 and D3 (assumption 12), and the high byte first (R37, R161). -/
def Obligations.DecodeOfEncodeIsTheInstruction : Prop :=
  ∀ i : Instr, i.WellFormed → decodeWord (encode i) = i ∧ ∀ rest, decode (encodeBytes i ++ rest) = .ok (i, rest)

/-- R61 (a) and R53: whatever the word, the decoded instruction is one the decoder may deliver, and its tag gives back the
word's opcode field. The opcode numbers are D2's (assumption 12). -/
def Obligations.DecodedInstructionKeepsOpcode : Prop :=
  ∀ w : Word, (decodeWord w).WellFormed ∧ opcodeNumber (decodeWord w).opcode = w.extractLsb' 12 4

/-- R57: words that differ in ignored bits only decode alike, and encoding the decoded instruction gives the word back with
those bits cleared. That every pattern of them is accepted is the spec's own decision (D4; assumption 13). -/
def Obligations.IgnoredBitsAreIgnored : Prop :=
  (∀ w w' : Word, w &&& usedBits (decodeWord w) = w' &&& usedBits (decodeWord w) → decodeWord w' = decodeWord w)
    ∧ ∀ w : Word, encode (decodeWord w) = w &&& usedBits (decodeWord w)

/-- R58: the Illegal encodings are exactly the words of opcodes 1000 and 1101, whatever the low twelve bits; they carry the
raw word; executing one is fatal; and an unrecognised vector is a legal TRAP, fatal for its own reason. The opcode of TRAP is
D2's, from general knowledge (assumption 12). -/
def Obligations.IllegalEncodingsExactly : Prop :=
  (∀ w : Word, (∃ raw, decodeWord w = .rti raw ∨ decodeWord w = .reserved raw) ↔ hasOpcode 0b1000 w ∨ hasOpcode 0b1101 w)
    ∧ (∀ w : Word, hasOpcode 0b1000 w → decodeWord w = .rti w)
    ∧ (∀ w : Word, hasOpcode 0b1101 w → decodeWord w = .reserved w)
    ∧ (∀ (raw : Word) (s : State),
        (∃ t, exec (.rti raw) s = .next t ∧ Alike (raiseFatal .illegalInstruction s) t)
        ∧ ∃ t, exec (.reserved raw) s = .next t ∧ Alike (raiseFatal .illegalInstruction s) t)
    ∧ ∀ (vec : Byte) (s : State), ¬ knownVector vec →
        decodeWord (encode (.trap vec)) = .trap vec
        ∧ ∃ t, exec (.trap vec) s = .next t ∧ Alike (raiseFatal (.unknownTrapVector vec) s) t

/-- R62: every word selects exactly one of the 19 rows, the row of the constructor it decodes to. Masks and patterns are those
of the opcode table, from general knowledge (D2, D3; assumption 12). -/
def Obligations.OpcodeTableRowsPartitionTheWords : Prop :=
  ∀ w : Word, (tableRow (decodeWord w)).selects w ∧ tableRow (decodeWord w) ∈ opcodeTable
    ∧ ∀ r ∈ opcodeTable, r.selects w → r = tableRow (decodeWord w)

/-! ## The condition -/

/-- R17: setcc by bit 15, zero, and else, for every value, and it changes nothing else. -/
def Obligations.SetccByValue : Prop :=
  ∀ (s : State) (v : Word),
    s.setcc v = { s with cc := if v.getLsbD 15 = true then .n else if v = 0#16 then .z else .p }

/-- R18, R92: exactly ADD, AND, NOT, LD, LDI, LDR and LEA set the condition, from the value they leave in DR; every other
instruction leaves it. -/
def Obligations.ConditionWrittenByTheSevenOnly : Prop :=
  ∀ (i : Instr) (s t : State), exec i s = .next t →
    (∀ dr, flagDestOf i = some dr →
      t.cc = if (t.reg dr).getLsbD 15 = true then .n else if t.reg dr = 0#16 then .z else .p)
    ∧ (flagDestOf i = none → t.cc = s.cc)

/-- R16: changing the condition changes nothing but the condition itself in what any instruction but BR does: not a register,
not memory that can be read, not the diagnostic, not whether it stops. -/
def Obligations.OnlyBrReadsTheCondition : Prop :=
  ∀ (i : Instr) (s : State) (c : Cond), (∀ n z p off, i ≠ .br n z p off) →
    AlikeResults (mapNext (fun t => if (flagDestOf i).isSome then t else { t with cc := c }) (exec i s))
      (exec i { s with cc := c })

/-! ## Operate instructions -/

/-- R86, R87: ADD completes in every state, in both forms, with the wrapped sum. -/
def Obligations.AddCompletes : Prop :=
  (∀ (dr sr1 sr2 : RegIdx) (s : State), ∃ t, exec (.addReg dr sr1 sr2) s = .next t
    ∧ t.reg dr = s.reg sr1 + s.reg sr2 ∧ t.cc = condOf (s.reg sr1 + s.reg sr2)
    ∧ sameRegsBut dr s t ∧ t.pc = s.pc ∧ sameMemory s t ∧ sameEngine s t ∧ sameChannels s t)
  ∧ ∀ (dr sr1 : RegIdx) (imm : Word) (s : State), ∃ t, exec (.addImm dr sr1 imm) s = .next t
    ∧ t.reg dr = s.reg sr1 + imm ∧ t.cc = condOf (s.reg sr1 + imm)
    ∧ sameRegsBut dr s t ∧ t.pc = s.pc ∧ sameMemory s t ∧ sameEngine s t ∧ sameChannels s t

/-- R88, R89: AND completes in every state, in both forms, with the bitwise conjunction. -/
def Obligations.AndCompletes : Prop :=
  (∀ (dr sr1 sr2 : RegIdx) (s : State), ∃ t, exec (.andReg dr sr1 sr2) s = .next t
    ∧ t.reg dr = s.reg sr1 &&& s.reg sr2 ∧ t.cc = condOf (s.reg sr1 &&& s.reg sr2)
    ∧ sameRegsBut dr s t ∧ t.pc = s.pc ∧ sameMemory s t ∧ sameEngine s t ∧ sameChannels s t)
  ∧ ∀ (dr sr1 : RegIdx) (imm : Word) (s : State), ∃ t, exec (.andImm dr sr1 imm) s = .next t
    ∧ t.reg dr = s.reg sr1 &&& imm ∧ t.cc = condOf (s.reg sr1 &&& imm)
    ∧ sameRegsBut dr s t ∧ t.pc = s.pc ∧ sameMemory s t ∧ sameEngine s t ∧ sameChannels s t

/-- R90: NOT completes in every state with the complement, which is 65535 minus the operand (R85). -/
def Obligations.NotCompletes : Prop :=
  ∀ (dr sr : RegIdx) (s : State), ∃ t, exec (.notReg dr sr) s = .next t
    ∧ t.reg dr = ~~~(s.reg sr) ∧ (t.reg dr).toNat = 65535 - (s.reg sr).toNat ∧ t.cc = condOf (~~~(s.reg sr))
    ∧ sameRegsBut dr s t ∧ t.pc = s.pc ∧ sameMemory s t ∧ sameEngine s t ∧ sameChannels s t

/-! ## Data movement -/

/-- R96: LD completes whenever its read has an answer, with the value read; only the input channel may have moved, as the read
left it. -/
def Obligations.LdCompletes : Prop :=
  ∀ (dr : RegIdx) (off v : Word) (s s' : State), memRead (s.pc + off) s = .ok (v, s') →
    ∃ t, exec (.ld dr off) s = .next t ∧ t.reg dr = v ∧ t.cc = condOf v
      ∧ sameRegsBut dr s t ∧ t.pc = s.pc ∧ sameMemory s t ∧ sameEngine s t ∧ t.input = s'.input ∧ t.output = s.output

/-- R97: LDI reads the pointer, then the data through it. -/
def Obligations.LdiCompletes : Prop :=
  ∀ (dr : RegIdx) (off ptr v : Word) (s s' s'' : State),
    memRead (s.pc + off) s = .ok (ptr, s') → memRead ptr s' = .ok (v, s'') →
    ∃ t, exec (.ldi dr off) s = .next t ∧ t.reg dr = v ∧ t.cc = condOf v
      ∧ sameRegsBut dr s t ∧ t.pc = s.pc ∧ sameMemory s t ∧ sameEngine s t ∧ t.input = s''.input ∧ t.output = s.output

/-- R98: LDR, the base read before DR is written. -/
def Obligations.LdrCompletes : Prop :=
  ∀ (dr base : RegIdx) (off v : Word) (s s' : State), memRead (s.reg base + off) s = .ok (v, s') →
    ∃ t, exec (.ldr dr base off) s = .next t ∧ t.reg dr = v ∧ t.cc = condOf v
      ∧ sameRegsBut dr s t ∧ t.pc = s.pc ∧ sameMemory s t ∧ sameEngine s t ∧ t.input = s'.input ∧ t.output = s.output

/-- R99: LEA writes the address itself and sets the condition from it; it reads nothing. -/
def Obligations.LeaCompletes : Prop :=
  ∀ (dr : RegIdx) (off : Word) (s : State), ∃ t, exec (.lea dr off) s = .next t
    ∧ t.reg dr = s.pc + off ∧ t.cc = condOf (s.pc + off)
    ∧ sameRegsBut dr s t ∧ t.pc = s.pc ∧ sameMemory s t ∧ sameEngine s t ∧ sameChannels s t

/-- R100, R35: ST completes in every state and writes SR at the PC-relative address; every other byte stays. At a keyboard
address it completes too, with no effect but on the word behind it, of which nothing is said (U4, assumption 15). -/
def Obligations.StCompletes : Prop :=
  ∀ (sr : RegIdx) (off : Word) (s : State), ∃ t, exec (.st sr off) s = .next t
    ∧ (¬ s.cfg.isDevice (s.pc + off) → t.mem.readWord (s.pc + off) = s.reg sr) ∧ sameMemoryBut (s.pc + off) s t
    ∧ sameRegs s t ∧ t.cc = s.cc ∧ t.pc = s.pc ∧ sameEngine s t ∧ sameChannels s t

/-- R101, R35: STI completes whenever its pointer read has an answer, and writes SR at that pointer; every other byte stays,
the pointer's own word among them unless the pointer points at it. At a keyboard address it completes too, with no effect but
on the word behind it, of which nothing is said (U4, assumption 15). -/
def Obligations.StiCompletes : Prop :=
  ∀ (sr : RegIdx) (off ptr : Word) (s s' : State), memRead (s.pc + off) s = .ok (ptr, s') →
    ∃ t, exec (.sti sr off) s = .next t
      ∧ (¬ s.cfg.isDevice ptr → t.mem.readWord ptr = s.reg sr) ∧ sameMemoryBut ptr s t
      ∧ sameRegs s t ∧ t.cc = s.cc ∧ t.pc = s.pc ∧ sameEngine s t ∧ t.input = s'.input ∧ t.output = s.output

/-- R102, R35: STR completes in every state and writes SR at base plus offset; every other byte stays. At a keyboard address
it completes too, with no effect but on the word behind it, of which nothing is said (U4, assumption 15). -/
def Obligations.StrCompletes : Prop :=
  ∀ (sr base : RegIdx) (off : Word) (s : State), ∃ t, exec (.str sr base off) s = .next t
    ∧ (¬ s.cfg.isDevice (s.reg base + off) → t.mem.readWord (s.reg base + off) = s.reg sr)
    ∧ sameMemoryBut (s.reg base + off) s t
    ∧ sameRegs s t ∧ t.cc = s.cc ∧ t.pc = s.pc ∧ sameEngine s t ∧ sameChannels s t

/-- R34, R103, R78: an instruction stops only with a wait no event in the channel ends, or with a string that has no end; LD,
LDR, LDI and STI stop exactly with their reads; GETC and IN stop only while the channel is open; and nothing is refused. How a
wait is shown is the model's choice (assumptions 9, 10). -/
def Obligations.StopsOnlyOnWaitOrEndlessString : Prop :=
  (∀ (i : Instr) (s : State) (f : Fault), exec i s = .fault f →
    (∀ left, f = .waitsForInput left → s.input.ending = .openEnded)
    ∧ (∀ left, f = .kbdrExhausted left → s.input.ending = .exhausted ∧ i ≠ .trap 0x20 ∧ i ≠ .trap 0x23)
    ∧ (∀ left, f = .endlessService left → i = .trap 0x22 ∨ i = .trap 0x24)
    ∧ ((∃ dr off, i = .ld dr off) ∨ (∃ dr base off, i = .ldr dr base off) ∨ (∃ dr off, i = .ldi dr off)
        ∨ (∃ sr off, i = .sti sr off) ∨ ∃ vec, i = .trap vec ∧ vec ≠ 0x21 ∧ vec ≠ 0x25 ∧ knownVector vec))
  ∧ (∀ (dr : RegIdx) (off : Word) (s : State) (f : Fault),
      exec (.ld dr off) s = .fault f ↔ memRead (s.pc + off) s = .error f)
  ∧ (∀ (dr base : RegIdx) (off : Word) (s : State) (f : Fault),
      exec (.ldr dr base off) s = .fault f ↔ memRead (s.reg base + off) s = .error f)
  ∧ (∀ (dr : RegIdx) (off : Word) (s : State) (f : Fault),
      exec (.ldi dr off) s = .fault f ↔ memRead (s.pc + off) s = .error f
        ∨ ∃ ptr s', memRead (s.pc + off) s = .ok (ptr, s') ∧ memRead ptr s' = .error f)
  ∧ (∀ (sr : RegIdx) (off : Word) (s : State) (f : Fault),
      exec (.sti sr off) s = .fault f ↔ memRead (s.pc + off) s = .error f)
  ∧ ∀ (i : Instr) (s : State) (r : Refusal), exec i s ≠ .refused r

/-! ## Control transfer -/

/-- R110: BR completes in every state; it is taken exactly when a requested condition holds; it changes the pc alone. -/
def Obligations.BrCompletes : Prop :=
  ∀ (n z p : Bool) (off : Word) (s : State), ∃ t, exec (.br n z p off) s = .next t
    ∧ ((n = true ∧ s.cc = .n ∨ z = true ∧ s.cc = .z ∨ p = true ∧ s.cc = .p) → t.pc = s.pc + off)
    ∧ (¬ (n = true ∧ s.cc = .n ∨ z = true ∧ s.cc = .z ∨ p = true ∧ s.cc = .p) → t.pc = s.pc)
    ∧ t.cc = s.cc ∧ sameRegs s t ∧ sameMemory s t ∧ sameEngine s t ∧ sameChannels s t

/-- R111: JMP (and RET, base 7) completes in every state with the base register in the pc, and changes the pc alone. -/
def Obligations.JmpCompletes : Prop :=
  ∀ (base : RegIdx) (s : State), ∃ t, exec (.jmp base) s = .next t
    ∧ t.pc = s.reg base ∧ t.cc = s.cc ∧ sameRegs s t ∧ sameMemory s t ∧ sameEngine s t ∧ sameChannels s t

/-- R112: JSR completes in every state: the incremented pc to R7, and the pc to the incremented pc plus the offset. -/
def Obligations.JsrCompletes : Prop :=
  ∀ (off : Word) (s : State), ∃ t, exec (.jsr off) s = .next t
    ∧ t.reg 7 = s.pc ∧ t.pc = s.pc + off
    ∧ sameRegsBut 7 s t ∧ t.cc = s.cc ∧ sameMemory s t ∧ sameEngine s t ∧ sameChannels s t

/-- R113: JSRR completes in every state, for both values of JSRR_BASE_READ (open: D10, assumption 2); they differ for base 7
only. -/
def Obligations.JsrrCompletes : Prop :=
  ∀ (base : RegIdx) (s : State), ∃ t, exec (.jsrr base) s = .next t
    ∧ t.reg 7 = s.pc
    ∧ (base ≠ 7 → t.pc = s.reg base)
    ∧ (base = 7 → s.cfg.jsrrBaseRead = .beforeLink → t.pc = s.reg 7)
    ∧ (base = 7 → s.cfg.jsrrBaseRead = .afterLink → t.pc = s.pc)
    ∧ sameRegsBut 7 s t ∧ t.cc = s.cc ∧ sameMemory s t ∧ sameEngine s t ∧ sameChannels s t

/-! ## TRAP -/

/-- R139, R146: GETC puts the next character, zero-extended, in R0 (high byte cleared: D12, assumption 18); on an exhausted
channel it puts 0; while the channel is open with nothing to come it is held, and has put nothing (assumption 9). -/
def Obligations.GetcCompletes : Prop :=
  (∀ (s : State) (c : Byte) (rest : List InputEvent), nextChar s.input.script = some (c, rest) →
    ∃ t, exec (.trap 0x20) s = .next t ∧ t.reg 0 = c.setWidth 16 ∧ t.input = ⟨rest, s.input.ending⟩ ∧ t.output = s.output
      ∧ sameRegsBut 0 s t ∧ t.cc = s.cc ∧ t.pc = s.pc ∧ sameMemory s t ∧ sameEngine s t)
  ∧ (∀ s : State, nextChar s.input.script = none → s.input.ending = .exhausted →
    ∃ t, exec (.trap 0x20) s = .next t ∧ t.reg 0 = 0#16 ∧ t.input = ⟨[], .exhausted⟩ ∧ t.output = s.output
      ∧ sameRegsBut 0 s t ∧ t.cc = s.cc ∧ t.pc = s.pc ∧ sameMemory s t ∧ sameEngine s t)
  ∧ ∀ s : State, nextChar s.input.script = none → s.input.ending = .openEnded →
      exec (.trap 0x20) s = .fault (.waitsForInput ⟨⟨[], .openEnded⟩, s.output⟩)

/-- R140: OUT completes in every state and puts the low byte of R0. -/
def Obligations.OutCompletes : Prop :=
  ∀ s : State, ∃ t, exec (.trap 0x21) s = .next t ∧ t.output = s.output ++ [(s.reg 0).extractLsb' 0 8]
    ∧ t.input = s.input ∧ sameRegs s t ∧ t.cc = s.cc ∧ t.pc = s.pc ∧ sameMemory s t ∧ sameEngine s t

/-- R141: PUTS writes the low byte of each word of the string at R0 and stops at the zero word. `ws` are the words before it,
none zero; none of the addresses read is the keyboard's. A longer `ws` cannot be, since the addresses wrap (D15, assumption
19). -/
def Obligations.PutsWritesTheString : Prop :=
  ∀ (s : State) (ws : List Word), ws.length < 65536 →
    (∀ k (h : k < ws.length), ¬ s.cfg.isDevice (s.reg 0 + BitVec.ofNat 16 k)
      ∧ s.mem.readWord (s.reg 0 + BitVec.ofNat 16 k) = ws[k] ∧ ws[k] ≠ 0#16) →
    ¬ s.cfg.isDevice (s.reg 0 + BitVec.ofNat 16 ws.length) →
    s.mem.readWord (s.reg 0 + BitVec.ofNat 16 ws.length) = 0#16 →
    ∃ t, exec (.trap 0x22) s = .next t ∧ t.output = s.output ++ ws.map (fun w => w.extractLsb' 0 8)
      ∧ t.input = s.input ∧ sameRegs s t ∧ t.cc = s.cc ∧ t.pc = s.pc ∧ sameMemory s t ∧ sameEngine s t

/-- R142, R146, R78: IN puts the prompt, reads, echoes, stores in R0 the whole zero-extended character (high byte cleared:
D12, assumption 18); on an exhausted channel the zero sentinel is echoed and stored (D14, assumption 19); while the channel is
open with nothing to come it is held, the prompt put (assumption 9). -/
def Obligations.InCompletes : Prop :=
  (∀ (s : State) (c : Byte) (rest : List InputEvent), nextChar s.input.script = some (c, rest) →
    ∃ t, exec (.trap 0x23) s = .next t ∧ t.reg 0 = c.setWidth 16 ∧ t.input = ⟨rest, s.input.ending⟩
      ∧ t.output = s.output ++ s.cfg.inPrompt ++ [c]
      ∧ sameRegsBut 0 s t ∧ t.cc = s.cc ∧ t.pc = s.pc ∧ sameMemory s t ∧ sameEngine s t)
  ∧ (∀ s : State, nextChar s.input.script = none → s.input.ending = .exhausted →
    ∃ t, exec (.trap 0x23) s = .next t ∧ t.reg 0 = 0#16 ∧ t.input = ⟨[], .exhausted⟩
      ∧ t.output = s.output ++ s.cfg.inPrompt ++ [0#8]
      ∧ sameRegsBut 0 s t ∧ t.cc = s.cc ∧ t.pc = s.pc ∧ sameMemory s t ∧ sameEngine s t)
  ∧ ∀ s : State, nextChar s.input.script = none → s.input.ending = .openEnded →
      exec (.trap 0x23) s = .fault (.waitsForInput ⟨⟨[], .openEnded⟩, s.output ++ s.cfg.inPrompt⟩)

/-- R143: PUTSP writes low byte then high byte of each word at R0 while both are non-zero, and stops at the first zero byte,
after the low byte if it is the high one. `ws` are the full words, `last` the word with the zero byte (D15, assumption 19). -/
def Obligations.PutspWritesTheString : Prop :=
  ∀ (s : State) (ws : List Word) (last : Word), ws.length < 65536 →
    (∀ k (h : k < ws.length), ¬ s.cfg.isDevice (s.reg 0 + BitVec.ofNat 16 k)
      ∧ s.mem.readWord (s.reg 0 + BitVec.ofNat 16 k) = ws[k]
      ∧ ws[k].extractLsb' 0 8 ≠ 0#8 ∧ ws[k].extractLsb' 8 8 ≠ 0#8) →
    ¬ s.cfg.isDevice (s.reg 0 + BitVec.ofNat 16 ws.length) →
    s.mem.readWord (s.reg 0 + BitVec.ofNat 16 ws.length) = last →
    last.extractLsb' 0 8 = 0#8 ∨ last.extractLsb' 8 8 = 0#8 →
    ∃ t, exec (.trap 0x24) s = .next t
      ∧ t.output = s.output ++ ws.flatMap (fun w => [w.extractLsb' 0 8, w.extractLsb' 8 8])
          ++ (if last.extractLsb' 0 8 = 0#8 then [] else [last.extractLsb' 0 8])
      ∧ t.input = s.input ∧ sameRegs s t ∧ t.cc = s.cc ∧ t.pc = s.pc ∧ sameMemory s t ∧ sameEngine s t

/-- R144, R120: HALT completes in every state: the notice is put, the run state becomes Halted, and nothing else changes, the
diagnostic included (what HALT leaves is the spec's own decision: D24, assumption 20). -/
def Obligations.HaltEndsTheRunCleanly : Prop :=
  ∀ s : State, ∃ t, exec (.trap 0x25) s = .next t ∧ t.run = .halted ∧ t.output = s.output ++ s.cfg.haltNotice
    ∧ t.diagnostic = s.diagnostic ∧ t.input = s.input ∧ sameRegs s t ∧ t.cc = s.cc ∧ t.pc = s.pc ∧ sameMemory s t
    ∧ t.fetchAddr = s.fetchAddr ∧ t.fetchWord = s.fetchWord ∧ t.cfg = s.cfg

/-- R145, R132, R133: every other vector is a fatal halt that records the fetch's address and word and the vector, and changes
nothing else. The form of the record is the spec's own decision (D16, assumption 20). -/
def Obligations.UnknownVectorIsFatal : Prop :=
  ∀ (vec : Byte) (s : State), (vec.toNat < 0x20 ∨ 0x25 < vec.toNat) →
    ∃ t, exec (.trap vec) s = .next t ∧ Alike { s with
      run := .halted, diagnostic := some ⟨s.fetchAddr, s.fetchWord, .unknownTrapVector vec⟩ } t

/-- R120, R138: whatever the vector, TRAP leaves the pc (for a fatal halt: D17, assumption 20), the condition, every byte of
memory, R1 to R7, and R0 but for GETC and IN. That R7 is not written is the spec's own decision (D11, assumption 17). -/
def Obligations.TrapChangesOnlyR0AndChannels : Prop :=
  ∀ (vec : Byte) (s t : State), exec (.trap vec) s = .next t →
    t.pc = s.pc ∧ t.cc = s.cc ∧ sameMemory s t ∧ sameRegsBut 0 s t ∧ (vec ≠ 0x20 → vec ≠ 0x23 → t.reg 0 = s.reg 0)
    ∧ t.cfg = s.cfg ∧ t.fetchAddr = s.fetchAddr ∧ t.fetchWord = s.fetchWord
    ∧ (vec ≠ 0x25 → knownVector vec → t.run = s.run) ∧ (knownVector vec → t.diagnostic = s.diagnostic)

/-- R141, R143, U13: the model's bound on the words PUTS and PUTSP read is no limit of the machine. Whatever a scan of any
length answers, the trap answers; so where the trap stops as endless, no number of words ends the scan. The bound is the
model's choice (assumption 10). -/
def Obligations.ScanBoundIsNoLimit : Prop :=
  (∀ (n : Nat) (s t : State), scanString putsWord n (s.reg 0) s = .ok t → exec (.trap 0x22) s = .next t)
  ∧ (∀ (n : Nat) (s : State) (f : Fault), (∀ left, f ≠ .endlessService left) →
      scanString putsWord n (s.reg 0) s = .error f → exec (.trap 0x22) s = .fault f)
  ∧ (∀ (n : Nat) (s t : State), scanString putspWord n (s.reg 0) s = .ok t → exec (.trap 0x24) s = .next t)
  ∧ ∀ (n : Nat) (s : State) (f : Fault), (∀ left, f ≠ .endlessService left) →
      scanString putspWord n (s.reg 0) s = .error f → exec (.trap 0x24) s = .fault f

/-! ## The Illegal opcodes and the fatal halts -/

/-- R121, R122, R133: executing RTI or the reserved opcode completes by taking IllegalInstruction: the record of the fetch,
run Halted, and nothing else, the pc still after the instruction. The record and the pc are the spec's own decisions (D16,
D17; assumption 20). -/
def Obligations.IllegalOpcodesHaltFatally : Prop :=
  ∀ (raw : Word) (s : State),
    (∃ t, exec (.rti raw) s = .next t ∧ Alike { s with
      run := .halted, diagnostic := some ⟨s.fetchAddr, s.fetchWord, .illegalInstruction⟩ } t)
    ∧ ∃ t, exec (.reserved raw) s = .next t ∧ Alike { s with
      run := .halted, diagnostic := some ⟨s.fetchAddr, s.fetchWord, .illegalInstruction⟩ } t

/-- R131: a step of a running machine raises IllegalInstruction when, and only when, the word it fetched has opcode 1000 or
1101, and records the fetch address and the word. That the address recorded is the fetch address is the spec's own decision
(D16; assumption 20). -/
def Obligations.IllegalInstructionWhenAndOnlyWhen : Prop :=
  ∀ (s s' : State) (w : Word), s.run = .running → s.diagnostic = none → fetch s = .ok (w, s') →
    ((hasOpcode 0b1000 w ∨ hasOpcode 0b1101 w) →
      ∃ t, step s = .next t ∧ t.diagnostic = some ⟨s.pc, w, .illegalInstruction⟩ ∧ t.run = .halted)
    ∧ ∀ (t : State) (a x : Word), step s = .next t → t.diagnostic = some ⟨a, x, .illegalInstruction⟩ →
        hasOpcode 0b1000 w ∨ hasOpcode 0b1101 w

/-- R132: a step of a running machine raises UnknownTrapVector when, and only when, it executes a TRAP whose vector is outside
0x20 to 0x25; it records the fetch address, the word and the vector, which is the word's low byte; and the dispatcher has
changed no register, no memory word and no channel. The form of the record is the spec's own decision (D16; assumption 20). -/
def Obligations.UnknownTrapVectorWhenAndOnlyWhen : Prop :=
  ∀ (s s' : State) (w : Word), s.run = .running → s.diagnostic = none → fetch s = .ok (w, s') →
    (∀ vec, decodeWord w = .trap vec → (vec.toNat < 0x20 ∨ 0x25 < vec.toNat) →
      vec = w.extractLsb' 0 8
      ∧ ∃ t, step s = .next t ∧ t.diagnostic = some ⟨s.pc, w, .unknownTrapVector vec⟩ ∧ t.run = .halted
          ∧ sameRegs s t ∧ sameMemory s t ∧ t.input = s'.input ∧ t.output = s.output)
    ∧ ∀ (t : State) (a x : Word) (vec : Byte), step s = .next t → t.diagnostic = some ⟨a, x, .unknownTrapVector vec⟩ →
        decodeWord w = .trap vec ∧ (vec.toNat < 0x20 ∨ 0x25 < vec.toNat)

/-! ## The engine -/

/-- R71, R70: a step of a running machine reads the word at the pc through the bus, puts pc + 1 in the pc, and executes what
the word decodes to, the address and the word kept for the diagnostic; a fetch that has no answer stops it; a halted machine
stands still. When the bytes at the pc decode to an instruction, that instruction is well-formed and is the one that runs. The
record of the fetch, the byte cells and the stop of an unanswered fetch are the model's choice (assumptions 11, 1, 9). -/
def Obligations.StepRunsTheDecodedInstruction : Prop :=
  (∀ (s s' : State) (w : Word), s.run = .running → memRead s.pc s = .ok (w, s') →
    step s = exec (decodeWord w) { s' with pc := s.pc + 1#16, fetchAddr := s.pc, fetchWord := w })
  ∧ (∀ (s : State) (f : Fault), s.run = .running → memRead s.pc s = .error f → step s = .fault f)
  ∧ (∀ s : State, s.run = .halted → ∃ t, step s = .next t ∧ Alike s t)
  ∧ ∀ (s : State) (i : Instr), s.run = .running → ¬ s.cfg.isDevice s.pc →
      decode [s.mem.readByte (2 * s.pc.toNat), s.mem.readByte (2 * s.pc.toNat + 1)] = .ok (i, []) →
      i.WellFormed ∧ step s = exec i { s with
        pc := s.pc + 1#16, fetchAddr := s.pc, fetchWord := s.mem.readWord s.pc }

/-- R75, R76: for every word, the datapath under the control table's row for its form does what the meaning of the decoded
instruction does: the same next state or the same stop. The elements take their fields from the raw word (D21, assumption 23;
field places D3, assumption 12). -/
def Obligations.DatapathRunsTheWord : Prop :=
  ∀ (w : Word) (s : State), datapath (controlRow (decodeWord w)) w s = exec (decodeWord w) s

/-- R70: a step, and any number of steps, of a halted machine changes nothing. -/
def Obligations.HaltedMachineStandsStill : Prop :=
  ∀ s : State, s.run = .halted → ∀ n, ∃ t, stepMany n s = .next t ∧ Alike s t

/-- R20: Running at first; Halted is terminal for every step and every host action; Running becomes Halted exactly by trap
0x25, an Illegal instruction or an unrecognised vector. -/
def Obligations.RunEndsInExactlyThreeWays : Prop :=
  State.reset.run = .running
  ∧ (∀ s t : State, s.run = .halted → step s = .next t → t.run = .halted)
  ∧ (∀ (s : State) (c : Byte), s.run = .halted → (supplyChar c s).run = .halted ∧ (declareExhausted s).run = .halted)
  ∧ ∀ (s s' t : State) (w : Word), s.run = .running → fetch s = .ok (w, s') → step s = .next t →
      (t.run = .halted ↔ endsRun (decodeWord w))

/-- Every step keeps the invariant: memory in canonical form, no diagnostic while Running, and a diagnostic its word explains
(R20, R21, R131, R132). The canonical form is the model's own (assumption 1). -/
def Obligations.StepKeepsTheInvariant : Prop :=
  ∀ s t : State, s.Inv → step s = .next t → t.Inv

/-- The reset state meets the invariant. -/
def Obligations.ResetMeetsTheInvariant : Prop := State.reset.Inv

/-- R19, R35: no read ever returns the words behind the keyboard's addresses: two states equal but for those words step alike,
to states equal but for those words, or to the same stop. That every read is intercepted and no write is, are the spec's own
decisions (D8, D7; assumptions 16, 15). -/
def Obligations.WordsBehindTheKeyboardAreUnobservable : Prop :=
  ∀ s t : State, Alike s t → AlikeResults (step s) (step t)

/-- R48, R24, R170, R78: a step only appends to the output and only moves forward in the input, whether it completes or is
held; what holds at the input's end is the host's. The script of the input and the form of a held step are the model's
(assumptions 6, 9). -/
def Obligations.ChannelsOnlyMoveForward : Prop :=
  (∀ s t : State, step s = .next t →
    (∃ bs, t.output = s.output ++ bs) ∧ t.input.script <:+ s.input.script ∧ t.input.ending = s.input.ending)
  ∧ ∀ (s : State) (f : Fault), step s = .fault f →
    (∃ bs, f.left.output = s.output ++ bs) ∧ f.left.input.script <:+ s.input.script
    ∧ f.left.input.ending = s.input.ending

/-- R12: an instruction writes no register but the one the table of R12 gives it. -/
def Obligations.OnlyTheDestinationIsWritten : Prop :=
  ∀ (i : Instr) (s t : State), exec i s = .next t → ∀ r, destOf i ≠ some r → t.reg r = s.reg r

/-- R14: the pc after the step, instruction by instruction; the fetch has made it the address after the instruction's own.
That a fatal halt does not rewind it is the spec's own decision (D17; assumption 20). -/
def Obligations.PcAfterTheStep : Prop :=
  (∀ (s s' : State) (w : Word), fetch s = .ok (w, s') → s'.pc = s.pc + 1#16)
  ∧ (∀ (i : Instr) (s t : State), exec i s = .next t → isTransfer i = false → t.pc = s.pc)
  ∧ (∀ (n z p : Bool) (off : Word) (s t : State), exec (.br n z p off) s = .next t →
      t.pc = if n = true ∧ s.cc = .n ∨ z = true ∧ s.cc = .z ∨ p = true ∧ s.cc = .p then s.pc + off else s.pc)
  ∧ (∀ (base : RegIdx) (s t : State), exec (.jmp base) s = .next t → t.pc = s.reg base)
  ∧ (∀ (off : Word) (s t : State), exec (.jsr off) s = .next t → t.pc = s.pc + off)
  ∧ ∀ (base : RegIdx) (s t : State), exec (.jsrr base) s = .next t →
      t.pc = if base = 7 ∧ s.cfg.jsrrBaseRead = .afterLink then s.pc else s.reg base

/-- R39, R76: no instruction but ST, STI and STR changes memory. -/
def Obligations.OnlyStoresChangeMemory : Prop :=
  ∀ (i : Instr) (s t : State), exec i s = .next t → isStore i = false → sameMemory s t

/-- R20, R21: no instruction but those that end the run changes the run state or the diagnostic; HALT leaves the diagnostic
too (D24; assumption 20). No instruction changes the parameters (R5; that they stand in the state is the model's choice,
assumption 2) or the record of the fetch (R71; the model's own fields, assumption 11). -/
def Obligations.EngineStateChangesOnlyAtTheEnd : Prop :=
  ∀ (i : Instr) (s t : State), exec i s = .next t →
    t.cfg = s.cfg ∧ t.fetchAddr = s.fetchAddr ∧ t.fetchWord = s.fetchWord
    ∧ (¬ endsRun i → t.run = s.run ∧ t.diagnostic = s.diagnostic)
    ∧ (i = .trap 0x25 → t.diagnostic = s.diagnostic)

/-! ## The bus, memory, the channels -/

/-- R31, R32: a read of a device address is the device's answer; a read elsewhere returns the word last written there, or 0 if
none was, and changes nothing; a write succeeds at every address and changes memory alone, and there that one word. What a
write to a keyboard address leaves behind it is not said (R35, U4; assumption 15). -/
def Obligations.BusReadsWhatWasLastWritten : Prop :=
  (∀ s : State, memRead s.cfg.kbsrAddr s = .ok (kbsrRead s))
  ∧ (∀ s : State, s.cfg.wf → memRead s.cfg.kbdrAddr s = kbdrRead s)
  ∧ (∀ (s : State) (a : Word), ¬ s.cfg.isDevice a → ∃ t, memRead a s = .ok (s.mem.readWord a, t) ∧ Alike s t)
  ∧ (∀ a : Word, ¬ State.reset.cfg.isDevice a → State.reset.mem.readWord a = 0#16)
  ∧ (∀ (s : State) (a v : Word), (¬ s.cfg.isDevice a → (memWrite a v s).mem.readWord a = v)
      ∧ memWrite a v s = { s with mem := (memWrite a v s).mem })
  ∧ ∀ (s : State) (a b v : Word), b ≠ a → ¬ s.cfg.isDevice b → (memWrite a v s).mem.readWord b = s.mem.readWord b

/-- R33, R34: the status read answers bit 15 by whether a character is waiting and consumes none (bits [14:0] zero: the spec's
own decision D6, assumption 14); the data read takes the next character, zero-extended, and stops on a channel with none to
come, by a name that says whether it can ever come, the output as the step has left it (D9, R78; assumption 9). -/
def Obligations.KeyboardReads : Prop :=
  (∀ s : State, (kbsrRead s).1 = (if s.input.avail then 0x8000 else 0x0000)
    ∧ (s.input.avail = true ↔ ∃ c rest, s.input.script = .char c :: rest)
    ∧ nextChar (kbsrRead s).2.input.script = nextChar s.input.script
    ∧ Alike { s with input := (kbsrRead s).2.input } (kbsrRead s).2)
  ∧ (∀ (s : State) (c : Byte) (rest : List InputEvent), nextChar s.input.script = some (c, rest) →
      ∃ t, kbdrRead s = .ok (c.setWidth 16, t) ∧ Alike { s with input := ⟨rest, s.input.ending⟩ } t)
  ∧ (∀ s : State, nextChar s.input.script = none → s.input.ending = .exhausted →
      kbdrRead s = .error (.kbdrExhausted ⟨⟨[], .exhausted⟩, s.output⟩))
  ∧ ∀ s : State, nextChar s.input.script = none → s.input.ending = .openEnded →
      kbdrRead s = .error (.waitsForInput ⟨⟨[], .openEnded⟩, s.output⟩)

/-- R146: the character read of GETC and IN takes the character when one comes; on an exhausted channel it answers 0x00,
records nothing and does not halt; on an open one it waits; and a read of the data address on an exhausted channel, unlike it,
has no answer (D9). How a wait is shown, and the script of the channel, are the model's choice (assumptions 9, 6). -/
def Obligations.CharacterReadAnswersSentinel : Prop :=
  (∀ (s : State) (c : Byte) (rest : List InputEvent), nextChar s.input.script = some (c, rest) →
      ∃ t, readChar s = .ok (c, t) ∧ Alike { s with input := ⟨rest, s.input.ending⟩ } t)
  ∧ (∀ s : State, nextChar s.input.script = none → s.input.ending = .exhausted →
      (∃ t, readChar s = .ok (0#8, t) ∧ Alike { s with input := ⟨[], .exhausted⟩ } t)
      ∧ ∃ left, kbdrRead s = .error (.kbdrExhausted left))
  ∧ ∀ s : State, nextChar s.input.script = none → s.input.ending = .openEnded →
      readChar s = .error (.waitsForInput ⟨⟨[], .openEnded⟩, s.output⟩)

/-- Two memories in canonical form that read the same at every byte are equal: the form loses nothing and hides nothing. The
byte cells are the model's choice (assumption 1). -/
def Obligations.CanonicalMemoryIsItsReads : Prop :=
  ∀ m m' : Memory, m.wf → m'.wf → (∀ k, m.readByte k = m'.readByte k) → m = m'

/-- R44, R165: a word stored where the next fetch reads is the word it fetches, for each of the three stores. -/
def Obligations.StoreIsSeenByTheNextFetch : Prop :=
  (∀ (sr : RegIdx) (off : Word) (s t : State), exec (.st sr off) s = .next t → ¬ s.cfg.isDevice (s.pc + off) →
    t.pc = s.pc + off → ∃ u, fetch t = .ok (s.reg sr, u))
  ∧ (∀ (sr base : RegIdx) (off : Word) (s t : State), exec (.str sr base off) s = .next t →
      ¬ s.cfg.isDevice (s.reg base + off) → t.pc = s.reg base + off → ∃ u, fetch t = .ok (s.reg sr, u))
  ∧ ∀ (sr : RegIdx) (off ptr : Word) (s s' t : State), memRead (s.pc + off) s = .ok (ptr, s') →
      exec (.sti sr off) s = .next t → ¬ s.cfg.isDevice ptr → t.pc = ptr → ∃ u, fetch t = .ok (s.reg sr, u)

/-- R169: a running machine at a word 0x0000 outside the keyboard's addresses only advances its pc (and the record of the
fetch, the model's own). -/
def Obligations.ZeroWordOnlyAdvances : Prop :=
  ∀ s : State, s.run = .running → ¬ s.cfg.isDevice s.pc → s.mem.readWord s.pc = 0#16 →
    ∃ t, step s = .next t ∧ Alike { s with pc := s.pc + 1#16, fetchAddr := s.pc, fetchWord := 0#16 } t

/-! ## Reset, load, the host -/

/-- R45: a load past 0xFFFF fails; every other copies the words in order from the origin and changes nothing else, with no
wrap; the empty sequence writes nothing. What it leaves behind the keyboard's addresses is not said (R35). -/
def Obligations.LoadCopiesTheImage : Prop :=
  ∀ (origin : Word) (words : List Word) (s : State),
    (origin.toNat + words.length > 65536 → load origin words s = .refused .imageLoadError)
    ∧ (origin.toNat + words.length ≤ 65536 → ∃ t, load origin words s = .next t
        ∧ (∀ k (h : k < words.length), ¬ s.cfg.isDevice (BitVec.ofNat 16 (origin.toNat + k)) →
            t.mem.readWord (BitVec.ofNat 16 (origin.toNat + k)) = words[k])
        ∧ (∀ a : Word, a.toNat < origin.toNat ∨ origin.toNat + words.length ≤ a.toNat → ¬ s.cfg.isDevice a →
            t.mem.readWord a = s.mem.readWord a)
        ∧ (words = [] → Alike s t) ∧ t = { s with mem := t.mem })

/-- R26, R160, R162: after reset and load of an image that fits, registers 0, the pc at the origin, Z, Running, no diagnostic,
no output, the image in memory and 0 elsewhere. The input channel and the parameters are the reset state's, the model's choice
(assumptions 3 to 7). -/
def Obligations.BootedStateIsTheResetTable : Prop :=
  ∀ (origin : Word) (words : List Word), origin.toNat + words.length ≤ 65536 →
    ∃ t, bootImage origin words = .next t ∧ (∀ r, t.reg r = 0#16) ∧ t.pc = origin ∧ t.cc = .z ∧ t.run = .running
      ∧ t.diagnostic = none ∧ t.output = [] ∧ t.input = State.reset.input ∧ t.cfg = Config.standard
      ∧ (∀ k (h : k < words.length), ¬ t.cfg.isDevice (BitVec.ofNat 16 (origin.toNat + k)) →
          t.mem.readWord (BitVec.ofNat 16 (origin.toNat + k)) = words[k])
      ∧ ∀ a : Word, a.toNat < origin.toNat ∨ origin.toNat + words.length ≤ a.toNat → ¬ t.cfg.isDevice a →
          t.mem.readWord a = 0#16

/-- R161: an image file is the origin and the words, each high byte first; a file of odd length, or with no origin word, has
no image. That this is shown as a refusal is the model's choice (assumption 22). -/
def Obligations.ImageFileIsBigEndianWords : Prop :=
  (∀ (origin : Word) (words : List Word),
    parseImage ((origin :: words).flatMap fun w => [w.extractLsb' 8 8, w.extractLsb' 0 8]) = some (origin, words))
  ∧ ∀ file : List Byte, (file.length % 2 = 1 ∨ file.length < 2) →
      parseImage file = none ∧ bootFile file = .refused .imageLoadError

/-- R78, R139, R142, U7, R170: a wait the host ends. A GETC or IN or a read of the data address that is held completes, from
the same state, with the character the host then supplies: the whole zero-extended character in R0 (high byte cleared: D12,
assumption 18), for IN after the prompt and with the echo; GETC and IN complete with the sentinel when the host declares the
channel exhausted (echoed: D14, assumption 19). Whatever a held step has put stays put, and whatever it has taken stays taken,
when it goes on. The form of the wait is the model's choice (assumptions 6, 9, 25). -/
def Obligations.SuppliedCharacterEndsTheWait : Prop :=
  (∀ (s : State) (c : Byte), nextChar s.input.script = none → s.input.ending = .openEnded →
    (∃ t, exec (.trap 0x20) (supplyChar c s) = .next t ∧ t.reg 0 = c.setWidth 16)
    ∧ (∃ t, exec (.trap 0x23) (supplyChar c s) = .next t ∧ t.reg 0 = c.setWidth 16
        ∧ t.output = s.output ++ s.cfg.inPrompt ++ [c])
    ∧ ∃ u, kbdrRead (supplyChar c s) = .ok (c.setWidth 16, u))
  ∧ (∀ s : State, nextChar s.input.script = none →
    (∃ t, exec (.trap 0x20) (declareExhausted s) = .next t ∧ t.reg 0 = 0#16)
    ∧ ∃ t, exec (.trap 0x23) (declareExhausted s) = .next t ∧ t.reg 0 = 0#16
        ∧ t.output = s.output ++ s.cfg.inPrompt ++ [0#8])
  ∧ ∀ (s : State) (c : Byte) (left : Channels), step s = .fault (.waitsForInput left) →
    (∀ t, step (supplyChar c s) = .next t → left.output <+: t.output ∧ t.input.script <:+ left.input.script ++ [.char c])
    ∧ ∀ f, step (supplyChar c s) = .fault f →
        left.output <+: f.left.output ∧ f.left.input.script <:+ left.input.script ++ [.char c]

/-- R73, R136: a run whose flag is raised after n tests is cancelled in exactly the state n steps give, unless it has stopped
before, and then in that same state; the flag changes nothing (the spec's own decision D18; assumption 22). -/
def Obligations.CancellationFindsTheStateBetweenSteps : Prop :=
  ∀ (n : Nat) (later : List Bool) (s t : State), stepMany n s = .next t →
    runLoop (List.replicate n false ++ true :: later) s = .cancelled t
    ∨ t.run = .halted ∧ runLoop (List.replicate n false ++ true :: later) s = .stopped t
end

