-- ==== Sys2Proof/Laws/Decode.lean ====
section
/-! SUPPORT. Bytes of a word, fields placed in a word and read back, and the opcode map both ways. -/

namespace Sys2Proof

/-! ## Words and their bytes -/

@[simp] theorem highByte_wordOf (hi lo : Byte) : highByte (wordOf hi lo) = hi := by
  unfold highByte wordOf
  exact BitVec.extractLsb'_append_eq_left

@[simp] theorem lowByte_wordOf (hi lo : Byte) : lowByte (wordOf hi lo) = lo := by
  unfold lowByte wordOf
  exact BitVec.extractLsb'_append_eq_right

@[simp] theorem wordOf_highByte_lowByte (w : Word) : wordOf (highByte w) (lowByte w) = w := by
  apply BitVec.eq_of_getLsbD_eq
  intro i hi
  simp only [wordOf, highByte, lowByte, BitVec.getLsbD_append, BitVec.getLsbD_extractLsb']
  by_cases h : i < 8
  · simp [h]
  · have h8 : i - 8 < 8 := by omega
    have hs : 8 + (i - 8) = i := by omega
    simp [h, h8, hs]

/-! ## Fields -/

theorem getLsbD_place {n : Nat} (lo : Nat) (f : BitVec n) (i : Nat) :
    (place lo f).getLsbD i = (decide (i < 16) && (decide (lo ≤ i) && f.getLsbD (i - lo))) := by
  unfold place
  rw [BitVec.getLsbD_shiftLeft, BitVec.getLsbD_setWidth]
  by_cases h1 : i < 16
  · by_cases h2 : i < lo
    · simp [h1, h2]
    · have h3 : i - lo < 16 := by omega
      have h4 : lo ≤ i := by omega
      simp [h1, h2, h3, h4]
  · simp [h1]

@[simp] theorem opcodeOf_opcodeNumber (op : Opcode) : opcodeOf (opcodeNumber op) = op := by
  cases op <;> decide

theorem opcodeNumber_opcodeOf (n : BitVec 4) : opcodeNumber (opcodeOf n) = n := by
  revert n
  decide

/-- The low bits of a sign extension are the field (30_encoding.md R53). -/
theorem setWidth_sext {n : Nat} (h : n ≤ 16) (f : BitVec n) : (sext f).setWidth n = f := by
  unfold sext
  apply BitVec.eq_of_getLsbD_eq
  intro i hi
  have h16 : i < 16 := by omega
  rw [BitVec.getLsbD_setWidth, BitVec.getLsbD_signExtend]
  simp only [hi, h16, decide_true, Bool.true_and, if_true]

/-- The sign extension of a field is one. -/
theorem isSext_sext {n : Nat} (h : n ≤ 16) (f : BitVec n) : isSext n (sext f) := by
  unfold isSext
  rw [setWidth_sext h]
  rfl

theorem decode_wordBytes (w : Word) (rest : List Byte) :
    decode (wordBytes w ++ rest) = .ok (decodeWord w, rest) := by
  unfold wordBytes
  simp only [List.cons_append, List.nil_append, decode, wordOf_highByte_lowByte]

end Sys2Proof
end

