-- ==== Sys2Proof/Laws/Memory.lean ====
section
/-! SUPPORT. The laws of memory: read after write, writes elsewhere, and the canonical form every operation keeps. -/

namespace Sys2Proof.Machine

/-! ## Bytes -/

theorem Memory.readByte_append (m m' : Memory) (j : Nat) :
    Memory.readByte (m ++ m') j = if ∃ c ∈ m, c.1 = j then Memory.readByte m j else Memory.readByte m' j := by
  induction m with
  | nil => simp
  | cons c rest ih =>
    by_cases hc : c.1 = j
    · simp [Memory.readByte, hc]
    · simp [Memory.readByte, hc, ih]

theorem Memory.readByte_filter (q : Nat → Bool) (m : Memory) (j : Nat) :
    Memory.readByte (m.filter fun c => q c.1) j = if q j then m.readByte j else 0#8 := by
  induction m with
  | nil => simp [Memory.readByte]
  | cons c rest ih =>
    by_cases hc : c.1 = j
    · subst hc
      by_cases hq : q c.1
      · simp [hq, Memory.readByte]
      · simp only [Bool.not_eq_true] at hq
        simp [hq, ih]
    · by_cases hq : q c.1
      · simp [hq, Memory.readByte, hc, ih]
      · simp only [Bool.not_eq_true] at hq
        simp [hq, Memory.readByte, hc, ih]

theorem Memory.readByte_of_not_mem (m : Memory) (j : Nat) (h : ¬ ∃ c ∈ m, c.1 = j) : m.readByte j = 0#8 := by
  induction m with
  | nil => rfl
  | cons c rest ih =>
    have hc : c.1 ≠ j := fun e => h ⟨c, by simp, e⟩
    simp only [Memory.readByte, hc, if_false]
    exact ih fun ⟨d, hd, e⟩ => h ⟨d, by simp [hd], e⟩

/-- A read after a write, of any memory, canonical or not. -/
theorem Memory.readByte_writeByte (m : Memory) (k : Nat) (b : Byte) (j : Nat) :
    (m.writeByte k b).readByte j = if j = k then b else m.readByte j := by
  unfold Memory.writeByte
  have hlt := Memory.readByte_filter (fun x => decide (x < k)) m j
  have hgt := Memory.readByte_filter (fun x => decide (k < x)) m j
  rw [Memory.readByte_append, Memory.readByte_append]
  rcases Nat.lt_trichotomy j k with h | h | h
  · have hne : j ≠ k := by omega
    rw [if_neg hne]
    by_cases hm : ∃ c ∈ m, c.1 = j
    · obtain ⟨c, hc, rfl⟩ := hm
      have h1 : ∃ d ∈ m.filter (fun c => decide (c.1 < k)), d.1 = c.1 := ⟨c, by simp [hc, h], rfl⟩
      have h2 : ∃ d ∈ m.filter (fun c => decide (c.1 < k)) ++ (if b = 0#8 then [] else [(k, b)]), d.1 = c.1 :=
        ⟨c, by simp [hc, h], rfl⟩
      rw [if_pos h2, if_pos h1, hlt]
      simp [h]
    · have h2 : ¬ ∃ d ∈ m.filter (fun c => decide (c.1 < k)) ++ (if b = 0#8 then [] else [(k, b)]), d.1 = j := by
        rintro ⟨d, hd, rfl⟩
        rw [List.mem_append] at hd
        rcases hd with hd | hd
        · exact hm ⟨d, (List.mem_filter.1 hd).1, rfl⟩
        · split at hd
          · simp at hd
          · simp only [List.mem_singleton] at hd
            subst hd
            exact hne rfl
      rw [if_neg h2, hgt, Memory.readByte_of_not_mem m j hm]
      simp
  · subst h
    have h1 : ¬ ∃ d ∈ m.filter (fun c => decide (c.1 < j)), d.1 = j := by
      rintro ⟨d, hd, rfl⟩
      simp at hd
    by_cases hb : b = 0#8
    · subst hb
      have h2 : ¬ ∃ d ∈ m.filter (fun c => decide (c.1 < j)) ++ (if 0#8 = 0#8 then [] else [(j, 0#8)]), d.1 = j := by
        simp
      rw [if_neg h2, hgt]
      simp
    · have h2 : ∃ d ∈ m.filter (fun c => decide (c.1 < j)) ++ (if b = 0#8 then [] else [(j, b)]), d.1 = j :=
        ⟨(j, b), by rw [if_neg hb]; simp, rfl⟩
      rw [if_pos h2, if_neg h1, if_neg hb]
      simp [Memory.readByte]
  · have hne : j ≠ k := by omega
    have h2 : ¬ ∃ d ∈ m.filter (fun c => decide (c.1 < k)) ++ (if b = 0#8 then [] else [(k, b)]), d.1 = j := by
      rintro ⟨d, hd, rfl⟩
      rw [List.mem_append] at hd
      rcases hd with hd | hd
      · simp only [List.mem_filter, decide_eq_true_eq] at hd
        omega
      · split at hd
        · simp at hd
        · simp only [List.mem_singleton] at hd
          subst hd
          exact hne rfl
    rw [if_neg h2, if_neg hne, hgt]
    simp [h]

theorem Memory.writeByte_wf {m : Memory} (h : m.wf) {k : Nat} (hk : k < 131072) (b : Byte) : (m.writeByte k b).wf := by
  obtain ⟨hp, hc⟩ := h
  unfold Memory.writeByte
  refine ⟨?_, ?_⟩
  · rw [List.pairwise_append, List.pairwise_append]
    refine ⟨⟨hp.filter _, ?_, ?_⟩, hp.filter _, ?_⟩
    · split <;> simp
    · intro x hx y hy
      split at hy
      · simp at hy
      · simp only [List.mem_filter, decide_eq_true_eq] at hx
        simp only [List.mem_singleton] at hy
        subst hy
        exact hx.2
    · intro x hx y hy
      simp only [List.mem_filter, decide_eq_true_eq] at hy
      rw [List.mem_append] at hx
      rcases hx with hx | hx
      · simp only [List.mem_filter, decide_eq_true_eq] at hx
        omega
      · split at hx
        · simp at hx
        · simp only [List.mem_singleton] at hx
          subst hx
          exact hy.2
  · intro x hx
    rw [List.mem_append, List.mem_append] at hx
    rcases hx with (hx | hx) | hx
    · exact hc x (List.mem_filter.1 hx).1
    · split at hx
      · simp at hx
      · rename_i hb
        simp only [List.mem_singleton] at hx
        subst hx
        exact ⟨hb, hk⟩
    · exact hc x (List.mem_filter.1 hx).1

/-! ## Words -/

theorem Memory.readByte_writeWord (m : Memory) (addr v : Word) (k : Nat) :
    (m.writeWord addr v).readByte k =
      if k = 2 * addr.toNat then highByte v else if k = 2 * addr.toNat + 1 then lowByte v else m.readByte k := by
  unfold Memory.writeWord
  rw [Memory.readByte_writeByte, Memory.readByte_writeByte]
  split
  · rw [if_neg (by omega)]
  · rfl

@[simp] theorem Memory.readWord_writeWord_self (m : Memory) (addr v : Word) : (m.writeWord addr v).readWord addr = v := by
  unfold Memory.readWord
  rw [Memory.readByte_writeWord, Memory.readByte_writeWord, if_pos rfl, if_neg (by omega), if_pos rfl]
  exact wordOf_highByte_lowByte v

theorem Memory.readWord_writeWord_of_ne (m : Memory) {addr a : Word} (v : Word) (h : a ≠ addr) :
    (m.writeWord addr v).readWord a = m.readWord a := by
  have hn : a.toNat ≠ addr.toNat := fun e => h (BitVec.eq_of_toNat_eq e)
  unfold Memory.readWord
  rw [Memory.readByte_writeWord, Memory.readByte_writeWord, if_neg (by omega), if_neg (by omega), if_neg (by omega),
    if_neg (by omega)]

theorem Memory.writeWord_wf {m : Memory} (h : m.wf) (addr v : Word) : (m.writeWord addr v).wf := by
  have := addr.isLt
  exact Memory.writeByte_wf (Memory.writeByte_wf h (by omega) _) (by omega) _

theorem Memory.copyIn_wf {m : Memory} (h : m.wf) (addr : Word) (ws : List Word) : (m.copyIn addr ws).wf := by
  induction ws generalizing m addr with
  | nil => exact h
  | cons w ws ih => exact ih (Memory.writeWord_wf h addr w) _

theorem reset_mem_wf : State.reset.mem.wf := by decide

@[simp] theorem reset_readWord (addr : Word) : State.reset.mem.readWord addr = 0#16 := by
  change wordOf 0#8 0#8 = 0#16
  decide

end Sys2Proof.Machine
end

