-- ==== Sys2Proof/Laws/State.lean ====
section
/-! SUPPORT. The fields of the state after each named update, one lemma per field per update, and the registers read after
it. -/

namespace Sys2Proof.Machine

/-! ## Registers -/

theorem State.reg_setReg (s : State) (i j : RegIdx) (v : Word) :
    (s.setReg i v).reg j = if j = i then v else s.reg j := by
  simp only [State.setReg, State.reg, Vector.getElem_set, BitVec.toNat_inj, eq_comm]

@[simp] theorem State.reg_setReg_self (s : State) (i : RegIdx) (v : Word) : (s.setReg i v).reg i = v := by
  simp only [State.reg_setReg, if_true]

theorem State.reg_setReg_of_ne (s : State) {i j : RegIdx} (v : Word) (h : j ≠ i) : (s.setReg i v).reg j = s.reg j := by
  simp only [State.reg_setReg, if_neg h]

@[simp] theorem State.reg_setPc (s : State) (v : Word) (j : RegIdx) : (s.setPc v).reg j = s.reg j := rfl

@[simp] theorem State.reg_setcc (s : State) (v : Word) (j : RegIdx) : (s.setcc v).reg j = s.reg j := rfl

@[simp] theorem State.reg_put (s : State) (bs : List Byte) (j : RegIdx) : (s.put bs).reg j = s.reg j := rfl

@[simp] theorem reg_memWrite (addr v : Word) (s : State) (j : RegIdx) : (memWrite addr v s).reg j = s.reg j := rfl

@[simp] theorem reg_raiseFatal (reason : FatalReason) (s : State) (j : RegIdx) : (raiseFatal reason s).reg j = s.reg j :=
  rfl

@[simp] theorem reg_haltCleanly (s : State) (j : RegIdx) : (haltCleanly s).reg j = s.reg j := rfl

@[simp] theorem State.reg_writeDest_self (s : State) (dr : RegIdx) (v : Word) : (s.writeDest dr v).reg dr = v := by
  simp only [State.writeDest, State.reg_setcc, State.reg_setReg_self]

theorem State.reg_writeDest_of_ne (s : State) {dr j : RegIdx} (v : Word) (h : j ≠ dr) :
    (s.writeDest dr v).reg j = s.reg j := by
  simp only [State.writeDest, State.reg_setcc, State.reg_setReg_of_ne s v h]

/-! ## State.setReg -/

@[simp] theorem State.setReg_regs (s : State) (i : RegIdx) (v : Word) :
    (s.setReg i v).regs = s.regs.set i.toNat v := rfl

@[simp] theorem State.setReg_pc (s : State) (i : RegIdx) (v : Word) :
    (s.setReg i v).pc = s.pc := rfl

@[simp] theorem State.setReg_cc (s : State) (i : RegIdx) (v : Word) :
    (s.setReg i v).cc = s.cc := rfl

@[simp] theorem State.setReg_mem (s : State) (i : RegIdx) (v : Word) :
    (s.setReg i v).mem = s.mem := rfl

@[simp] theorem State.setReg_run (s : State) (i : RegIdx) (v : Word) :
    (s.setReg i v).run = s.run := rfl

@[simp] theorem State.setReg_diagnostic (s : State) (i : RegIdx) (v : Word) :
    (s.setReg i v).diagnostic = s.diagnostic := rfl

@[simp] theorem State.setReg_input (s : State) (i : RegIdx) (v : Word) :
    (s.setReg i v).input = s.input := rfl

@[simp] theorem State.setReg_output (s : State) (i : RegIdx) (v : Word) :
    (s.setReg i v).output = s.output := rfl

@[simp] theorem State.setReg_fetchAddr (s : State) (i : RegIdx) (v : Word) :
    (s.setReg i v).fetchAddr = s.fetchAddr := rfl

@[simp] theorem State.setReg_fetchWord (s : State) (i : RegIdx) (v : Word) :
    (s.setReg i v).fetchWord = s.fetchWord := rfl

@[simp] theorem State.setReg_cfg (s : State) (i : RegIdx) (v : Word) :
    (s.setReg i v).cfg = s.cfg := rfl

/-! ## State.setPc -/

@[simp] theorem State.setPc_regs (s : State) (v : Word) :
    (s.setPc v).regs = s.regs := rfl

@[simp] theorem State.setPc_pc (s : State) (v : Word) :
    (s.setPc v).pc = v := rfl

@[simp] theorem State.setPc_cc (s : State) (v : Word) :
    (s.setPc v).cc = s.cc := rfl

@[simp] theorem State.setPc_mem (s : State) (v : Word) :
    (s.setPc v).mem = s.mem := rfl

@[simp] theorem State.setPc_run (s : State) (v : Word) :
    (s.setPc v).run = s.run := rfl

@[simp] theorem State.setPc_diagnostic (s : State) (v : Word) :
    (s.setPc v).diagnostic = s.diagnostic := rfl

@[simp] theorem State.setPc_input (s : State) (v : Word) :
    (s.setPc v).input = s.input := rfl

@[simp] theorem State.setPc_output (s : State) (v : Word) :
    (s.setPc v).output = s.output := rfl

@[simp] theorem State.setPc_fetchAddr (s : State) (v : Word) :
    (s.setPc v).fetchAddr = s.fetchAddr := rfl

@[simp] theorem State.setPc_fetchWord (s : State) (v : Word) :
    (s.setPc v).fetchWord = s.fetchWord := rfl

@[simp] theorem State.setPc_cfg (s : State) (v : Word) :
    (s.setPc v).cfg = s.cfg := rfl

/-! ## State.setcc -/

@[simp] theorem State.setcc_regs (s : State) (v : Word) :
    (s.setcc v).regs = s.regs := rfl

@[simp] theorem State.setcc_pc (s : State) (v : Word) :
    (s.setcc v).pc = s.pc := rfl

@[simp] theorem State.setcc_cc (s : State) (v : Word) :
    (s.setcc v).cc = condOf v := rfl

@[simp] theorem State.setcc_mem (s : State) (v : Word) :
    (s.setcc v).mem = s.mem := rfl

@[simp] theorem State.setcc_run (s : State) (v : Word) :
    (s.setcc v).run = s.run := rfl

@[simp] theorem State.setcc_diagnostic (s : State) (v : Word) :
    (s.setcc v).diagnostic = s.diagnostic := rfl

@[simp] theorem State.setcc_input (s : State) (v : Word) :
    (s.setcc v).input = s.input := rfl

@[simp] theorem State.setcc_output (s : State) (v : Word) :
    (s.setcc v).output = s.output := rfl

@[simp] theorem State.setcc_fetchAddr (s : State) (v : Word) :
    (s.setcc v).fetchAddr = s.fetchAddr := rfl

@[simp] theorem State.setcc_fetchWord (s : State) (v : Word) :
    (s.setcc v).fetchWord = s.fetchWord := rfl

@[simp] theorem State.setcc_cfg (s : State) (v : Word) :
    (s.setcc v).cfg = s.cfg := rfl

/-! ## State.put -/

@[simp] theorem State.put_regs (s : State) (bs : List Byte) :
    (s.put bs).regs = s.regs := rfl

@[simp] theorem State.put_pc (s : State) (bs : List Byte) :
    (s.put bs).pc = s.pc := rfl

@[simp] theorem State.put_cc (s : State) (bs : List Byte) :
    (s.put bs).cc = s.cc := rfl

@[simp] theorem State.put_mem (s : State) (bs : List Byte) :
    (s.put bs).mem = s.mem := rfl

@[simp] theorem State.put_run (s : State) (bs : List Byte) :
    (s.put bs).run = s.run := rfl

@[simp] theorem State.put_diagnostic (s : State) (bs : List Byte) :
    (s.put bs).diagnostic = s.diagnostic := rfl

@[simp] theorem State.put_input (s : State) (bs : List Byte) :
    (s.put bs).input = s.input := rfl

@[simp] theorem State.put_output (s : State) (bs : List Byte) :
    (s.put bs).output = s.output ++ bs := rfl

@[simp] theorem State.put_fetchAddr (s : State) (bs : List Byte) :
    (s.put bs).fetchAddr = s.fetchAddr := rfl

@[simp] theorem State.put_fetchWord (s : State) (bs : List Byte) :
    (s.put bs).fetchWord = s.fetchWord := rfl

@[simp] theorem State.put_cfg (s : State) (bs : List Byte) :
    (s.put bs).cfg = s.cfg := rfl

/-! ## memWrite -/

@[simp] theorem memWrite_regs (addr v : Word) (s : State) :
    (memWrite addr v s).regs = s.regs := rfl

@[simp] theorem memWrite_pc (addr v : Word) (s : State) :
    (memWrite addr v s).pc = s.pc := rfl

@[simp] theorem memWrite_cc (addr v : Word) (s : State) :
    (memWrite addr v s).cc = s.cc := rfl

@[simp] theorem memWrite_mem (addr v : Word) (s : State) :
    (memWrite addr v s).mem = s.mem.writeWord addr v := rfl

@[simp] theorem memWrite_run (addr v : Word) (s : State) :
    (memWrite addr v s).run = s.run := rfl

@[simp] theorem memWrite_diagnostic (addr v : Word) (s : State) :
    (memWrite addr v s).diagnostic = s.diagnostic := rfl

@[simp] theorem memWrite_input (addr v : Word) (s : State) :
    (memWrite addr v s).input = s.input := rfl

@[simp] theorem memWrite_output (addr v : Word) (s : State) :
    (memWrite addr v s).output = s.output := rfl

@[simp] theorem memWrite_fetchAddr (addr v : Word) (s : State) :
    (memWrite addr v s).fetchAddr = s.fetchAddr := rfl

@[simp] theorem memWrite_fetchWord (addr v : Word) (s : State) :
    (memWrite addr v s).fetchWord = s.fetchWord := rfl

@[simp] theorem memWrite_cfg (addr v : Word) (s : State) :
    (memWrite addr v s).cfg = s.cfg := rfl

/-! ## raiseFatal -/

@[simp] theorem raiseFatal_regs (reason : FatalReason) (s : State) :
    (raiseFatal reason s).regs = s.regs := rfl

@[simp] theorem raiseFatal_pc (reason : FatalReason) (s : State) :
    (raiseFatal reason s).pc = s.pc := rfl

@[simp] theorem raiseFatal_cc (reason : FatalReason) (s : State) :
    (raiseFatal reason s).cc = s.cc := rfl

@[simp] theorem raiseFatal_mem (reason : FatalReason) (s : State) :
    (raiseFatal reason s).mem = s.mem := rfl

@[simp] theorem raiseFatal_run (reason : FatalReason) (s : State) :
    (raiseFatal reason s).run = .halted := rfl

@[simp] theorem raiseFatal_diagnostic (reason : FatalReason) (s : State) :
    (raiseFatal reason s).diagnostic = some ⟨s.fetchAddr, s.fetchWord, reason⟩ := rfl

@[simp] theorem raiseFatal_input (reason : FatalReason) (s : State) :
    (raiseFatal reason s).input = s.input := rfl

@[simp] theorem raiseFatal_output (reason : FatalReason) (s : State) :
    (raiseFatal reason s).output = s.output := rfl

@[simp] theorem raiseFatal_fetchAddr (reason : FatalReason) (s : State) :
    (raiseFatal reason s).fetchAddr = s.fetchAddr := rfl

@[simp] theorem raiseFatal_fetchWord (reason : FatalReason) (s : State) :
    (raiseFatal reason s).fetchWord = s.fetchWord := rfl

@[simp] theorem raiseFatal_cfg (reason : FatalReason) (s : State) :
    (raiseFatal reason s).cfg = s.cfg := rfl

/-! ## haltCleanly -/

@[simp] theorem haltCleanly_regs (s : State) :
    (haltCleanly s).regs = s.regs := rfl

@[simp] theorem haltCleanly_pc (s : State) :
    (haltCleanly s).pc = s.pc := rfl

@[simp] theorem haltCleanly_cc (s : State) :
    (haltCleanly s).cc = s.cc := rfl

@[simp] theorem haltCleanly_mem (s : State) :
    (haltCleanly s).mem = s.mem := rfl

@[simp] theorem haltCleanly_run (s : State) :
    (haltCleanly s).run = .halted := rfl

@[simp] theorem haltCleanly_diagnostic (s : State) :
    (haltCleanly s).diagnostic = s.diagnostic := rfl

@[simp] theorem haltCleanly_input (s : State) :
    (haltCleanly s).input = s.input := rfl

@[simp] theorem haltCleanly_output (s : State) :
    (haltCleanly s).output = s.output := rfl

@[simp] theorem haltCleanly_fetchAddr (s : State) :
    (haltCleanly s).fetchAddr = s.fetchAddr := rfl

@[simp] theorem haltCleanly_fetchWord (s : State) :
    (haltCleanly s).fetchWord = s.fetchWord := rfl

@[simp] theorem haltCleanly_cfg (s : State) :
    (haltCleanly s).cfg = s.cfg := rfl

/-! ## State.writeDest -/

@[simp] theorem State.writeDest_regs (s : State) (dr : RegIdx) (v : Word) :
    (s.writeDest dr v).regs = s.regs.set dr.toNat v := rfl

@[simp] theorem State.writeDest_pc (s : State) (dr : RegIdx) (v : Word) :
    (s.writeDest dr v).pc = s.pc := rfl

@[simp] theorem State.writeDest_cc (s : State) (dr : RegIdx) (v : Word) :
    (s.writeDest dr v).cc = condOf v := rfl

@[simp] theorem State.writeDest_mem (s : State) (dr : RegIdx) (v : Word) :
    (s.writeDest dr v).mem = s.mem := rfl

@[simp] theorem State.writeDest_run (s : State) (dr : RegIdx) (v : Word) :
    (s.writeDest dr v).run = s.run := rfl

@[simp] theorem State.writeDest_diagnostic (s : State) (dr : RegIdx) (v : Word) :
    (s.writeDest dr v).diagnostic = s.diagnostic := rfl

@[simp] theorem State.writeDest_input (s : State) (dr : RegIdx) (v : Word) :
    (s.writeDest dr v).input = s.input := rfl

@[simp] theorem State.writeDest_output (s : State) (dr : RegIdx) (v : Word) :
    (s.writeDest dr v).output = s.output := rfl

@[simp] theorem State.writeDest_fetchAddr (s : State) (dr : RegIdx) (v : Word) :
    (s.writeDest dr v).fetchAddr = s.fetchAddr := rfl

@[simp] theorem State.writeDest_fetchWord (s : State) (dr : RegIdx) (v : Word) :
    (s.writeDest dr v).fetchWord = s.fetchWord := rfl

@[simp] theorem State.writeDest_cfg (s : State) (dr : RegIdx) (v : Word) :
    (s.writeDest dr v).cfg = s.cfg := rfl

end Sys2Proof.Machine
end

