-- ==== Sys2Proof/Laws/Bus.lean ====
section
/-! SUPPORT. What a read through the bus, a character read, a scan of a string and the fetch can do, said once each. -/

namespace Sys2Proof.Machine

/-- The input channel has only moved on: the script is what is left of the old one, and its end is the same. -/
structure MovedOn (ch ch' : InputChannel) : Prop where
  script : ch'.script <:+ ch.script
  ending : ch'.ending = ch.ending

theorem MovedOn.refl (ch : InputChannel) : MovedOn ch ch := ⟨List.suffix_refl _, rfl⟩

theorem MovedOn.trans {a b c : InputChannel} (h : MovedOn a b) (h' : MovedOn b c) : MovedOn a c :=
  ⟨h'.script.trans h.script, h'.ending.trans h.ending⟩

theorem nextChar_suffix {script rest : List InputEvent} {c : Byte} (h : nextChar script = some (c, rest)) :
    rest <:+ script := by
  induction script with
  | nil => simp [nextChar] at h
  | cons e script ih =>
    cases e with
    | char c' =>
      simp only [nextChar, Option.some.injEq, Prod.mk.injEq] at h
      exact h.2 ▸ List.suffix_cons _ _
    | pause => exact (ih h).trans (List.suffix_cons _ _)

theorem afterPoll_movedOn (ch : InputChannel) : MovedOn ch ch.afterPoll := by
  obtain ⟨script, ending⟩ := ch
  unfold InputChannel.afterPoll
  split
  · rename_i rest hs
    refine ⟨?_, rfl⟩
    simp only at hs
    simp only [hs]
    exact List.suffix_cons _ _
  · exact MovedOn.refl _

/-- What a stop has left of the channels of `s`: the input moved on, bytes put. -/
structure LeftBy (s : State) (left : Channels) : Prop where
  input : MovedOn s.input left.input
  output : ∃ bs, left.output = s.output ++ bs

theorem leftBy_waiting (s : State) : LeftBy s s.waiting := ⟨⟨List.nil_suffix, rfl⟩, [], by simp [State.waiting]⟩

theorem leftBy_channels (s : State) : LeftBy s s.channels := ⟨MovedOn.refl _, [], by simp [State.channels]⟩

/-- What is left after a state that has itself only moved the input on and put bytes. -/
theorem LeftBy.of_moved {s : State} {ch : InputChannel} {bs : List Byte} {left : Channels} (hm : MovedOn s.input ch)
    (h : LeftBy { s with input := ch, output := s.output ++ bs } left) : LeftBy s left :=
  ⟨hm.trans h.input, h.output.elim fun bs' e => ⟨bs ++ bs', by simp only [e, List.append_assoc]⟩⟩

/-! ## Reads through the bus -/

theorem memRead_plain {s : State} {addr : Word} (h : ¬ s.cfg.isDevice addr) :
    memRead addr s = .ok (s.mem.readWord addr, s) := by
  rw [not_or] at h
  unfold memRead
  rw [if_neg h.1, if_neg h.2]

theorem memRead_kbsr (s : State) : memRead s.cfg.kbsrAddr s = .ok (kbsrRead s) := by
  unfold memRead
  rw [if_pos rfl]

theorem memRead_kbdr {s : State} (h : s.cfg.wf) : memRead s.cfg.kbdrAddr s = kbdrRead s := by
  unfold memRead
  rw [if_neg (Ne.symm h), if_pos rfl]

theorem kbdrRead_ok {s s' : State} {v : Word} (h : kbdrRead s = .ok (v, s')) :
    ∃ c rest, nextChar s.input.script = some (c, rest) ∧ v = zext8 c
      ∧ s' = { s with input := { s.input with script := rest } } := by
  unfold kbdrRead at h
  split at h
  · rename_i c rest hc
    simp only [Except.ok.injEq, Prod.mk.injEq] at h
    exact ⟨c, rest, hc, h.1.symm, h.2.symm⟩
  · split at h <;> cases h

/-- All a read can do to the state is to move the input channel on. -/
theorem memRead_ok {s s' : State} {addr v : Word} (h : memRead addr s = .ok (v, s')) :
    ∃ ch, s' = { s with input := ch } ∧ MovedOn s.input ch := by
  unfold memRead at h
  split at h
  · simp only [Except.ok.injEq, kbsrRead, Prod.mk.injEq] at h
    exact ⟨_, h.2.symm, afterPoll_movedOn _⟩
  · split at h
    · obtain ⟨c, rest, hc, -, rfl⟩ := kbdrRead_ok h
      exact ⟨_, rfl, nextChar_suffix hc, rfl⟩
    · simp only [Except.ok.injEq, Prod.mk.injEq] at h
      exact ⟨s.input, h.2.symm, MovedOn.refl _⟩

/-- A read stops only at the keyboard-data address with no character to come, by the name its channel's end gives. -/
theorem memRead_error {s : State} {addr : Word} {f : Fault} (h : memRead addr s = .error f) :
    addr = s.cfg.kbdrAddr ∧ nextChar s.input.script = none
      ∧ f = (match s.input.ending with
        | .exhausted => Fault.kbdrExhausted s.waiting
        | .openEnded => Fault.waitsForInput s.waiting) := by
  unfold memRead at h
  split at h
  · cases h
  · split at h
    · rename_i ha
      unfold kbdrRead at h
      split at h
      · cases h
      · rename_i hn
        refine ⟨ha, hn, ?_⟩
        cases he : s.input.ending <;> simp only [he, Except.error.injEq] at h ⊢ <;> exact h.symm
    · cases h

/-- A read that stops leaves the channels waiting. -/
theorem memRead_left {s : State} {addr : Word} {f : Fault} (h : memRead addr s = .error f) : f.left = s.waiting := by
  obtain ⟨-, -, rfl⟩ := memRead_error h
  cases s.input.ending <;> rfl

/-- A character read takes the next character, or answers the sentinel on an exhausted channel. -/
theorem readChar_ok {s s' : State} {c : Byte} (h : readChar s = .ok (c, s')) :
    (∃ rest, nextChar s.input.script = some (c, rest) ∧ s' = { s with input := { s.input with script := rest } })
    ∨ (nextChar s.input.script = none ∧ s.input.ending = .exhausted ∧ c = 0#8
        ∧ s' = { s with input := { s.input with script := [] } }) := by
  unfold readChar at h
  split at h
  · rename_i c' rest hc
    simp only [Except.ok.injEq, Prod.mk.injEq] at h
    obtain ⟨rfl, rfl⟩ := h
    exact .inl ⟨rest, hc, rfl⟩
  · rename_i hn
    split at h
    · rename_i he
      simp only [Except.ok.injEq, Prod.mk.injEq] at h
      exact .inr ⟨hn, he, h.1.symm, h.2.symm⟩
    · cases h

/-- A character read stops only on an open channel with no character to come. -/
theorem readChar_error {s : State} {f : Fault} (h : readChar s = .error f) :
    nextChar s.input.script = none ∧ s.input.ending = .openEnded ∧ f = .waitsForInput s.waiting := by
  unfold readChar at h
  split at h
  · cases h
  · rename_i hn
    cases he : s.input.ending <;> simp only [he, reduceCtorEq, Except.error.injEq] at h
    exact ⟨hn, rfl, h.symm⟩

theorem readChar_movedOn {s s' : State} {c : Byte} (h : readChar s = .ok (c, s')) :
    ∃ ch, s' = { s with input := ch } ∧ MovedOn s.input ch := by
  rcases readChar_ok h with ⟨rest, hc, rfl⟩ | ⟨-, -, -, rfl⟩
  · exact ⟨_, rfl, nextChar_suffix hc, rfl⟩
  · exact ⟨_, rfl, List.nil_suffix, rfl⟩

/-! ## The scan of a string -/

/-- All a scan can do to the state is to move the input channel on and to put bytes. -/
theorem scanString_ok {word : Word → List Byte × Bool} {n : Nat} {p : Word} {s s' : State}
    (h : scanString word n p s = .ok s') :
    ∃ ch bs, s' = { s with input := ch, output := s.output ++ bs } ∧ MovedOn s.input ch := by
  induction n generalizing p s with
  | zero => cases h
  | succ n ih =>
    unfold scanString at h
    split at h
    · cases h
    · rename_i w s₁ hr
      obtain ⟨ch₁, rfl, hm₁⟩ := memRead_ok hr
      split at h
      · cases h
        exact ⟨ch₁, _, rfl, hm₁⟩
      · obtain ⟨ch₂, bs, rfl, hm₂⟩ := ih h
        exact ⟨ch₂, (word w).1 ++ bs, by simp only [State.put, List.append_assoc], hm₁.trans hm₂⟩

/-- All a scan that stops has done. -/
theorem scanString_error {word : Word → List Byte × Bool} {n : Nat} {p : Word} {s : State} {f : Fault}
    (h : scanString word n p s = .error f) : LeftBy s f.left := by
  induction n generalizing p s with
  | zero =>
    cases h
    exact leftBy_channels s
  | succ n ih =>
    unfold scanString at h
    split at h
    · rename_i hr
      cases h
      exact memRead_left hr ▸ leftBy_waiting s
    · rename_i w s₁ hr
      obtain ⟨ch, rfl, hm⟩ := memRead_ok hr
      split at h
      · cases h
      · exact LeftBy.of_moved hm (ih h)

/-- One word of a scan whose address the keyboard does not answer. -/
theorem scanString_plain {word : Word → List Byte × Bool} {n : Nat} {p : Word} {s : State}
    (h : ¬ s.cfg.isDevice p) :
    scanString word (n + 1) p s =
      if (word (s.mem.readWord p)).2 then .ok (s.put (word (s.mem.readWord p)).1)
      else scanString word n (p + 1#16) (s.put (word (s.mem.readWord p)).1) := by
  rw [scanString, memRead_plain h]

/-! ## The fetch -/

theorem fetch_ok {s s' : State} {w : Word} (h : fetch s = .ok (w, s')) :
    ∃ ch, memRead s.pc s = .ok (w, { s with input := ch }) ∧ MovedOn s.input ch
      ∧ s' = { s with input := ch, pc := s.pc + 1#16, fetchAddr := s.pc, fetchWord := w } := by
  unfold fetch at h
  split at h
  · rename_i w' s₁ hr
    simp only [Except.ok.injEq, Prod.mk.injEq] at h
    obtain ⟨rfl, rfl⟩ := h
    obtain ⟨ch, rfl, hm⟩ := memRead_ok hr
    exact ⟨ch, hr, hm, rfl⟩
  · cases h

theorem fetch_plain {s : State} (h : ¬ s.cfg.isDevice s.pc) :
    fetch s = .ok (s.mem.readWord s.pc,
      { s with pc := s.pc + 1#16, fetchAddr := s.pc, fetchWord := s.mem.readWord s.pc }) := by
  unfold fetch
  rw [memRead_plain h]

/-- A step that answers a next state is a halted machine standing still, or a fetch and the execution of its word. -/
theorem step_next {s t : State} (h : step s = .next t) :
    (s.run = .halted ∧ t = s)
    ∨ (s.run = .running ∧ ∃ w s', fetch s = .ok (w, s') ∧ exec (decodeWord w) s' = .next t) := by
  unfold step at h
  split at h
  · rename_i hr
    cases h
    exact .inl ⟨hr, rfl⟩
  · rename_i hr
    split at h
    · rename_i w s' hf
      exact .inr ⟨hr, w, s', hf, h⟩
    · cases h

end Sys2Proof.Machine
end

