-- ==== Sys2Proof/Laws/Exec.lean ====
section
/-! SUPPORT. What each meaning can answer, said once: the loads and STI through their reads, TRAP through its dispatcher. The
other meanings answer a next state by definition. -/

namespace Sys2Proof.Machine

theorem onRead_next {r : Except Fault (Word × State)} {go : Word → State → Result} {t : State}
    (h : onRead r go = .next t) : ∃ v s, r = .ok (v, s) ∧ go v s = .next t := by
  unfold onRead at h
  split at h
  · exact ⟨_, _, rfl, h⟩
  · cases h

theorem onRead_fault {r : Except Fault (Word × State)} {go : Word → State → Result} {f : Fault}
    (h : onRead r go = .fault f) : r = .error f ∨ ∃ v s, r = .ok (v, s) ∧ go v s = .fault f := by
  unfold onRead at h
  split at h
  · exact .inr ⟨_, _, rfl, h⟩
  · cases h
    exact .inl rfl

theorem loadInto_next {dr : RegIdx} {ea : Word} {s t : State} (h : loadInto dr ea s = .next t) :
    ∃ v s', memRead ea s = .ok (v, s') ∧ t = s'.writeDest dr v := by
  obtain ⟨v, s', hr, hg⟩ := onRead_next h
  cases hg
  exact ⟨v, s', hr, rfl⟩

theorem loadInto_of_read {dr : RegIdx} {ea v : Word} {s s' : State} (h : memRead ea s = .ok (v, s')) :
    loadInto dr ea s = .next (s'.writeDest dr v) := by
  unfold loadInto
  rw [h]
  rfl

/-- A load changes its destination, the condition and the input channel, nothing else. -/
theorem loadInto_frame {dr : RegIdx} {ea : Word} {s t : State} (h : loadInto dr ea s = .next t) :
    ∃ v ch, t = ({ s with input := ch } : State).writeDest dr v ∧ MovedOn s.input ch := by
  obtain ⟨v, s', hr, rfl⟩ := loadInto_next h
  obtain ⟨ch, rfl, hm⟩ := memRead_ok hr
  exact ⟨v, ch, rfl, hm⟩

theorem execLdi_frame {dr : RegIdx} {off : Word} {s t : State} (h : execLdi dr off s = .next t) :
    ∃ v ch, t = ({ s with input := ch } : State).writeDest dr v ∧ MovedOn s.input ch := by
  obtain ⟨ptr, s₁, hr, hg⟩ := onRead_next h
  obtain ⟨ch₁, rfl, hm₁⟩ := memRead_ok hr
  obtain ⟨v, ch₂, rfl, hm₂⟩ := loadInto_frame hg
  exact ⟨v, ch₂, rfl, hm₁.trans hm₂⟩

/-- STI changes the word it writes and the input channel, nothing else. -/
theorem execSti_frame {sr : RegIdx} {off : Word} {s t : State} (h : execSti sr off s = .next t) :
    ∃ ptr ch, memRead (pcRelative off s) s = .ok (ptr, { s with input := ch })
      ∧ t = memWrite ptr (s.reg sr) { s with input := ch } ∧ MovedOn s.input ch := by
  obtain ⟨ptr, s₁, hr, hg⟩ := onRead_next h
  obtain ⟨ch, rfl, hm⟩ := memRead_ok hr
  cases hg
  exact ⟨ptr, ch, hr, rfl, hm⟩

/-! ## TRAP -/

theorem answering_ok {outcome o : TrapOutcome} {r : Except Fault State} {s : State}
    (h : answering outcome r = .ok (o, s)) : o = outcome ∧ r = .ok s := by
  unfold answering at h
  split at h
  · simp only [Except.ok.injEq, Prod.mk.injEq] at h
    exact ⟨h.1.symm, by rw [h.2]⟩
  · cases h

/-- GETC and IN change R0, the input channel and the output, nothing else. -/
theorem serviceGetc_ok {s t : State} (h : serviceGetc s = .ok t) :
    ∃ c ch, readChar s = .ok (c, { s with input := ch }) ∧ MovedOn s.input ch
      ∧ t = ({ s with input := ch } : State).setReg 0 (zext8 c) := by
  unfold serviceGetc at h
  split at h
  · rename_i c s' hr
    cases h
    obtain ⟨ch, rfl, hm⟩ := readChar_movedOn hr
    exact ⟨c, ch, hr, hm, rfl⟩
  · cases h

theorem serviceIn_ok {s t : State} (h : serviceIn s = .ok t) :
    ∃ c ch, readChar (s.put s.cfg.inPrompt) = .ok (c, { s.put s.cfg.inPrompt with input := ch }) ∧ MovedOn s.input ch
      ∧ t = (({ s.put s.cfg.inPrompt with input := ch } : State).put [c]).setReg 0 (zext8 c) := by
  unfold serviceIn at h
  split at h
  · rename_i c s' hr
    cases h
    obtain ⟨ch, rfl, hm⟩ := readChar_movedOn hr
    exact ⟨c, ch, hr, hm, rfl⟩
  · cases h

/-- The state the dispatcher leaves: the registers but R0 (and R0 but for vectors 0x20 and 0x23), the input channel moved on,
bytes put; everything else as it was. -/
structure Served (vec : Byte) (s t : State) : Prop where
  regs : ∀ r, r ≠ 0 ∨ (vec ≠ 0x20 ∧ vec ≠ 0x23) → t.reg r = s.reg r
  input : MovedOn s.input t.input
  output : ∃ bs, t.output = s.output ++ bs
  rest : t = { s with regs := t.regs, input := t.input, output := t.output }

theorem Served.pc {vec : Byte} {s t : State} (h : Served vec s t) : t.pc = s.pc :=
  (congrArg State.pc h.rest).trans rfl

theorem Served.cc {vec : Byte} {s t : State} (h : Served vec s t) : t.cc = s.cc :=
  (congrArg State.cc h.rest).trans rfl

theorem Served.mem {vec : Byte} {s t : State} (h : Served vec s t) : t.mem = s.mem :=
  (congrArg State.mem h.rest).trans rfl

theorem Served.run {vec : Byte} {s t : State} (h : Served vec s t) : t.run = s.run :=
  (congrArg State.run h.rest).trans rfl

theorem Served.diagnostic {vec : Byte} {s t : State} (h : Served vec s t) : t.diagnostic = s.diagnostic :=
  (congrArg State.diagnostic h.rest).trans rfl

theorem Served.fetchAddr {vec : Byte} {s t : State} (h : Served vec s t) : t.fetchAddr = s.fetchAddr :=
  (congrArg State.fetchAddr h.rest).trans rfl

theorem Served.fetchWord {vec : Byte} {s t : State} (h : Served vec s t) : t.fetchWord = s.fetchWord :=
  (congrArg State.fetchWord h.rest).trans rfl

theorem Served.cfg {vec : Byte} {s t : State} (h : Served vec s t) : t.cfg = s.cfg :=
  (congrArg State.cfg h.rest).trans rfl

theorem served_put (vec : Byte) (s : State) (ch : InputChannel) (bs : List Byte) (h : MovedOn s.input ch) :
    Served vec s { s with input := ch, output := s.output ++ bs } :=
  ⟨fun _ _ => rfl, h, ⟨bs, rfl⟩, rfl⟩

/-- All the dispatcher can do (60_exceptions.md R138 to R145). -/
theorem trapDispatch_ok {vec : Byte} {s t : State} {o : TrapOutcome} (h : trapDispatch vec s = .ok (o, t)) :
    Served vec s t
      ∧ (o = .goOn ∧ knownVector vec ∧ vec ≠ 0x25 ∨ o = .halt ∧ vec = 0x25
          ∨ o = .unknownVector ∧ ¬ knownVector vec ∧ t = s) := by
  unfold trapDispatch at h
  split at h
  · obtain ⟨rfl, h'⟩ := answering_ok h
    obtain ⟨c, ch, -, hm, rfl⟩ := serviceGetc_ok h'
    refine ⟨⟨?_, hm, ⟨[], by simp⟩, rfl⟩, .inl ⟨rfl, by decide, by decide⟩⟩
    rintro r (hr | hr)
    · exact State.reg_setReg_of_ne _ _ hr
    · exact absurd rfl hr.1
  · obtain ⟨rfl, h'⟩ := answering_ok h
    cases h'
    exact ⟨served_put _ s s.input _ (MovedOn.refl _), .inl ⟨rfl, by decide, by decide⟩⟩
  · obtain ⟨rfl, h'⟩ := answering_ok h
    obtain ⟨ch, bs, rfl, hm⟩ := scanString_ok h'
    exact ⟨served_put _ s ch bs hm, .inl ⟨rfl, by decide, by decide⟩⟩
  · obtain ⟨rfl, h'⟩ := answering_ok h
    obtain ⟨c, ch, -, hm, rfl⟩ := serviceIn_ok h'
    refine ⟨⟨?_, hm, ⟨s.cfg.inPrompt ++ [c], by simp [State.put]⟩, rfl⟩, .inl ⟨rfl, by decide, by decide⟩⟩
    rintro r (hr | hr)
    · exact State.reg_setReg_of_ne _ _ hr
    · exact absurd rfl hr.2
  · obtain ⟨rfl, h'⟩ := answering_ok h
    obtain ⟨ch, bs, rfl, hm⟩ := scanString_ok h'
    exact ⟨served_put _ s ch bs hm, .inl ⟨rfl, by decide, by decide⟩⟩
  · obtain ⟨rfl, h'⟩ := answering_ok h
    cases h'
    exact ⟨served_put _ s s.input _ (MovedOn.refl _), .inr (.inl ⟨rfl, rfl⟩)⟩
  · rename_i h0 h1 h2 h3 h4 h5
    simp only [Except.ok.injEq, Prod.mk.injEq] at h
    obtain ⟨rfl, rfl⟩ := h
    refine ⟨⟨fun _ _ => rfl, MovedOn.refl _, ⟨[], by simp⟩, rfl⟩, .inr (.inr ⟨rfl, ?_, rfl⟩)⟩
    rintro ⟨hl, hu⟩
    have hl' : 0x20 ≤ vec.toNat := hl
    have hu' : vec.toNat ≤ 0x25 := hu
    have key : ∀ k : Nat, vec.toNat = k → vec = BitVec.ofNat 8 k := fun k e => by
      rw [← e, BitVec.ofNat_toNat, BitVec.setWidth_eq]
    have n0 : vec.toNat ≠ 0x20 := fun e => h0 (key 0x20 e)
    have n1 : vec.toNat ≠ 0x21 := fun e => h1 (key 0x21 e)
    have n2 : vec.toNat ≠ 0x22 := fun e => h2 (key 0x22 e)
    have n3 : vec.toNat ≠ 0x23 := fun e => h3 (key 0x23 e)
    have n4 : vec.toNat ≠ 0x24 := fun e => h4 (key 0x24 e)
    have n5 : vec.toNat ≠ 0x25 := fun e => h5 (key 0x25 e)
    omega

/-- All TRAP can do (44_trap_and_illegal.md R120). -/
theorem execTrap_next {vec : Byte} {s t : State} (h : execTrap vec s = .next t) :
    ∃ s', Served vec s s' ∧
      (knownVector vec ∧ vec ≠ 0x25 ∧ t = s' ∨ vec = 0x25 ∧ t = haltCleanly s'
        ∨ ¬ knownVector vec ∧ s' = s ∧ t = raiseFatal (.unknownTrapVector vec) s) := by
  unfold execTrap at h
  split at h
  · cases h
  · rename_i s' hd
    cases h
    obtain ⟨hs, ⟨-, hk, hv⟩ | ⟨ho, -⟩ | ⟨ho, -⟩⟩ := trapDispatch_ok hd
    · exact ⟨_, hs, .inl ⟨hk, hv, rfl⟩⟩
    · cases ho
    · cases ho
  · rename_i s' hd
    cases h
    obtain ⟨hs, ⟨ho, -⟩ | ⟨-, hv⟩ | ⟨ho, -⟩⟩ := trapDispatch_ok hd
    · cases ho
    · exact ⟨_, hs, .inr (.inl ⟨hv, rfl⟩)⟩
    · cases ho
  · rename_i s' hd
    cases h
    obtain ⟨hs, ⟨ho, -⟩ | ⟨ho, -⟩ | ⟨-, hk, rfl⟩⟩ := trapDispatch_ok hd
    · cases ho
    · cases ho
    · exact ⟨_, hs, .inr (.inr ⟨hk, rfl, rfl⟩)⟩

/-- JSRR links and jumps, whichever order its parameter names (43_control_flow.md R113). -/
theorem execJsrr_eq (base : RegIdx) (s : State) :
    execJsrr base s = .next ((s.setReg 7 s.pc).setPc
      (match s.cfg.jsrrBaseRead with | .beforeLink => s.reg base | .afterLink => (s.setReg 7 s.pc).reg base)) := by
  unfold execJsrr
  cases s.cfg.jsrrBaseRead <;> rfl

end Sys2Proof.Machine
end

