-- ==== Sys2Proof/Laws/PerInstr.lean ====
section
/-! SUPPORT. The statements made for each instruction, one lemma per constructor. -/

namespace Sys2Proof.Laws.EncodeOpcode

/-- The word of a well-formed instruction has its opcode in bits [15:12] (30_encoding.md R50, R61). -/
def Statement (i : Instr) : Prop := i.WellFormed → (encode i).extractLsb' 12 4 = opcodeNumber i.opcode

/-- The opcode field of a word, bit by bit. -/
theorem opcode_field {op : Opcode} {w : Word}
    (h : ∀ i, i < 4 → w.getLsbD (12 + i) = (opcodeNumber op).getLsbD i) : w.extractLsb' 12 4 = opcodeNumber op := by
  apply BitVec.eq_of_getLsbD_eq
  intro i hi
  rw [BitVec.getLsbD_extractLsb', h i hi]
  simp only [hi, decide_true, Bool.true_and]

theorem br (n z p : Bool) (off : Word) : Statement (.br n z p off) := fun _ => opcode_field fun i hi => by
  unfold encode placeOpcode Instr.opcode
  interval_cases i <;> simp [getLsbD_place, -BitVec.getLsbD_eq_getElem]

theorem addReg (dr sr1 sr2 : RegIdx) : Statement (.addReg dr sr1 sr2) := fun _ => opcode_field fun i hi => by
  unfold encode placeOpcode Instr.opcode
  interval_cases i <;> simp [getLsbD_place, -BitVec.getLsbD_eq_getElem]

theorem addImm (dr sr1 : RegIdx) (imm : Word) : Statement (.addImm dr sr1 imm) := fun _ => opcode_field fun i hi => by
  unfold encode placeOpcode Instr.opcode
  interval_cases i <;> simp [getLsbD_place, -BitVec.getLsbD_eq_getElem]

theorem ld (dr : RegIdx) (off : Word) : Statement (.ld dr off) := fun _ => opcode_field fun i hi => by
  unfold encode placeOpcode Instr.opcode
  interval_cases i <;> simp [getLsbD_place, -BitVec.getLsbD_eq_getElem]

theorem st (sr : RegIdx) (off : Word) : Statement (.st sr off) := fun _ => opcode_field fun i hi => by
  unfold encode placeOpcode Instr.opcode
  interval_cases i <;> simp [getLsbD_place, -BitVec.getLsbD_eq_getElem]

theorem jsr (off : Word) : Statement (.jsr off) := fun _ => opcode_field fun i hi => by
  unfold encode placeOpcode Instr.opcode
  interval_cases i <;> simp [getLsbD_place, -BitVec.getLsbD_eq_getElem]

theorem jsrr (base : RegIdx) : Statement (.jsrr base) := fun _ => opcode_field fun i hi => by
  unfold encode placeOpcode Instr.opcode
  interval_cases i <;> simp [getLsbD_place, -BitVec.getLsbD_eq_getElem]

theorem andReg (dr sr1 sr2 : RegIdx) : Statement (.andReg dr sr1 sr2) := fun _ => opcode_field fun i hi => by
  unfold encode placeOpcode Instr.opcode
  interval_cases i <;> simp [getLsbD_place, -BitVec.getLsbD_eq_getElem]

theorem andImm (dr sr1 : RegIdx) (imm : Word) : Statement (.andImm dr sr1 imm) := fun _ => opcode_field fun i hi => by
  unfold encode placeOpcode Instr.opcode
  interval_cases i <;> simp [getLsbD_place, -BitVec.getLsbD_eq_getElem]

theorem ldr (dr base : RegIdx) (off : Word) : Statement (.ldr dr base off) := fun _ => opcode_field fun i hi => by
  unfold encode placeOpcode Instr.opcode
  interval_cases i <;> simp [getLsbD_place, -BitVec.getLsbD_eq_getElem]

theorem str (sr base : RegIdx) (off : Word) : Statement (.str sr base off) := fun _ => opcode_field fun i hi => by
  unfold encode placeOpcode Instr.opcode
  interval_cases i <;> simp [getLsbD_place, -BitVec.getLsbD_eq_getElem]

theorem rti (raw : Word) : Statement (.rti raw) := fun h => of_decide_eq_true h

theorem notReg (dr sr : RegIdx) : Statement (.notReg dr sr) := fun _ => opcode_field fun i hi => by
  unfold encode placeOpcode Instr.opcode
  interval_cases i <;> simp [getLsbD_place, -BitVec.getLsbD_eq_getElem]

theorem ldi (dr : RegIdx) (off : Word) : Statement (.ldi dr off) := fun _ => opcode_field fun i hi => by
  unfold encode placeOpcode Instr.opcode
  interval_cases i <;> simp [getLsbD_place, -BitVec.getLsbD_eq_getElem]

theorem sti (sr : RegIdx) (off : Word) : Statement (.sti sr off) := fun _ => opcode_field fun i hi => by
  unfold encode placeOpcode Instr.opcode
  interval_cases i <;> simp [getLsbD_place, -BitVec.getLsbD_eq_getElem]

theorem jmp (base : RegIdx) : Statement (.jmp base) := fun _ => opcode_field fun i hi => by
  unfold encode placeOpcode Instr.opcode
  interval_cases i <;> simp [getLsbD_place, -BitVec.getLsbD_eq_getElem]

theorem reserved (raw : Word) : Statement (.reserved raw) := fun h => of_decide_eq_true h

theorem lea (dr : RegIdx) (off : Word) : Statement (.lea dr off) := fun _ => opcode_field fun i hi => by
  unfold encode placeOpcode Instr.opcode
  interval_cases i <;> simp [getLsbD_place, -BitVec.getLsbD_eq_getElem]

theorem trap (vec : Byte) : Statement (.trap vec) := fun _ => opcode_field fun i hi => by
  unfold encode placeOpcode Instr.opcode
  interval_cases i <;> simp [getLsbD_place, -BitVec.getLsbD_eq_getElem]

end Sys2Proof.Laws.EncodeOpcode
end

