-- ==== Sys2Proof/Tests/Slice0.lean ====
section
/-! SUPPORT. Tests on fixed values, each from spec/95_test_vectors.md or a rule's own example, and for every statement with
hypotheses a state and operands that meet them. -/

namespace Sys2Proof.Tests

open Sys2Proof.Machine

/-! ## Helpers -/

/-- The vectors' start state: the word `w` at `a`, all else as at reset. -/
def stateAt (a w : Word) : State := { State.reset with pc := a, mem := Memory.writeWord [] a w }

/-- The same with more words in memory. -/
def poke (s : State) (cells : List (Word × Word)) : State :=
  { s with mem := cells.foldl (fun m c => Memory.writeWord m c.1 c.2) s.mem }

/-- The same with characters waiting and the channel's end. -/
def typed (s : State) (cs : List Byte) (ending : InputEnd := .exhausted) : State :=
  { s with input := ⟨cs.map .char, ending⟩ }

/-- A next state that passes a check. -/
def nextIs (r : Result) (q : State → Bool) : Bool :=
  match r with
  | .next t => q t
  | .fault _ => false
  | .refused _ => false

/-- A stop of a given name. -/
def stopsWith (r : Result) (f : Fault) : Bool :=
  match r with
  | .next _ => false
  | .fault g => f == g
  | .refused _ => false

/-! ## Well-formedness: an ill-formed term for each check -/

theorem test_wellFormed_refuses :
    (Instr.br true true true 0x0100).wellFormed = false ∧ (Instr.addImm 0 0 0x0010).wellFormed = false
      ∧ (Instr.ld 0 0xFEFF).wellFormed = false ∧ (Instr.st 0 0x0100).wellFormed = false
      ∧ (Instr.jsr 0x0400).wellFormed = false ∧ (Instr.andImm 0 0 0xFFEF).wellFormed = false
      ∧ (Instr.ldr 0 0 0x0020).wellFormed = false ∧ (Instr.str 0 0 0xFFDF).wellFormed = false
      ∧ (Instr.rti 0x9000).wellFormed = false ∧ (Instr.ldi 0 0x0100).wellFormed = false
      ∧ (Instr.sti 0 0x0100).wellFormed = false ∧ (Instr.reserved 0xC000).wellFormed = false
      ∧ (Instr.lea 0 0x0100).wellFormed = false := by decide

theorem test_wellFormed_accepts_extremes :
    (Instr.br false false false 0xFF00).WellFormed ∧ (Instr.addImm 0 0 0xFFF0).WellFormed
      ∧ (Instr.andImm 0 0 0x000F).WellFormed ∧ (Instr.jsr 0xFC00).WellFormed ∧ (Instr.ldr 0 0 0x001F).WellFormed
      ∧ (Instr.str 0 0 0xFFE0).WellFormed ∧ (Instr.rti 0x8FFF).WellFormed ∧ (Instr.reserved 0xD000).WellFormed := by
  decide

/-! ## Decoding: a word for every constructor, written out from R51 and R54 -/

/-- 0000 n z p offset9. -/
theorem test_decode_br : decodeWord 0b0000_0_0_1_111111101#16 = .br false false true 0xFFFD := by decide
/-- 0001 DR SR1 0 xx SR2, the ignored bits 0 and 1. -/
theorem test_decode_addReg : decodeWord 0b0001_000_001_0_00_010#16 = .addReg 0 1 2
    ∧ decodeWord 0b0001_000_001_0_11_010#16 = .addReg 0 1 2 := by decide
/-- 0001 DR SR1 1 imm5. -/
theorem test_decode_addImm : decodeWord 0b0001_001_001_1_11111#16 = .addImm 1 1 0xFFFF := by decide
/-- 0010 DR offset9. -/
theorem test_decode_ld : decodeWord 0b0010_111_000000111#16 = .ld 7 7 := by decide
/-- 0011 SR offset9. -/
theorem test_decode_st : decodeWord 0b0011_101_000001100#16 = .st 5 12 := by decide
/-- 0100 1 offset11. -/
theorem test_decode_jsr : decodeWord 0b0100_1_10000000000#16 = .jsr 0xFC00 := by decide
/-- 0100 0 xx BaseR xxxxxx. -/
theorem test_decode_jsrr : decodeWord 0b0100_0_00_010_000000#16 = .jsrr 2
    ∧ decodeWord 0b0100_0_11_111_111111#16 = .jsrr 7 := by decide
/-- 0101 DR SR1 0 xx SR2. -/
theorem test_decode_andReg : decodeWord 0b0101_000_001_0_00_010#16 = .andReg 0 1 2 := by decide
/-- 0101 DR SR1 1 imm5. -/
theorem test_decode_andImm : decodeWord 0b0101_000_001_1_10000#16 = .andImm 0 1 0xFFF0 := by decide
/-- 0110 DR BaseR offset6. -/
theorem test_decode_ldr : decodeWord 0b0110_010_001_111111#16 = .ldr 2 1 0xFFFF := by decide
/-- 0111 SR BaseR offset6. -/
theorem test_decode_str : decodeWord 0b0111_010_001_100000#16 = .str 2 1 0xFFE0 := by decide
/-- 1000, the rest any. -/
theorem test_decode_rti : decodeWord 0b1000_111111111111#16 = .rti 0x8FFF := by decide
/-- 1001 DR SR xxxxxx. -/
theorem test_decode_not : decodeWord 0b1001_101_100_111111#16 = .notReg 5 4
    ∧ decodeWord 0b1001_101_100_000000#16 = .notReg 5 4 := by decide
/-- 1010 DR offset9. -/
theorem test_decode_ldi : decodeWord 0b1010_010_000000101#16 = .ldi 2 5 := by decide
/-- 1011 SR offset9. -/
theorem test_decode_sti : decodeWord 0b1011_011_000000001#16 = .sti 3 1 := by decide
/-- 1100 xxx BaseR xxxxxx. -/
theorem test_decode_jmp : decodeWord 0b1100_000_111_000000#16 = .jmp 7
    ∧ decodeWord 0b1100_111_010_111111#16 = .jmp 2 := by decide
/-- 1101, the rest any. -/
theorem test_decode_reserved : decodeWord 0b1101_101010111100#16 = .reserved 0xDABC := by decide
/-- 1110 DR offset9. -/
theorem test_decode_lea : decodeWord 0b1110_000_111111110#16 = .lea 0 0xFFFE := by decide
/-- 1111 xxxx trapvect8. -/
theorem test_decode_trap : decodeWord 0b1111_0000_00100101#16 = .trap 0x25
    ∧ decodeWord 0b1111_1111_00100101#16 = .trap 0x25 := by decide
/-- Bytes: the high byte first; one byte alone is refused by name. -/
theorem test_decode_bytes : decode [0x10, 0x65, 0xAA] = .ok (.addImm 0 1 5, [0xAA]) ∧ decode [0x10] = .error .truncated
    ∧ decodeTableWord 16 0x1065 = some (.addImm 0 1 5) := by decide

/-! ## The operate instructions -/

/-- V14. -/
theorem test_addReg_carry_lost :
    nextIs (step (((stateAt 0x3000 0x1042).setReg 1 0xFFFF).setReg 2 1))
      (fun t => t.reg 0 == 0 && t.cc == .z && t.pc == 0x3001) = true := by decide
/-- V15. -/
theorem test_addReg_all_one_register :
    nextIs (step ((stateAt 0x3000 0x16C3).setReg 3 0x8000)) (fun t => t.reg 3 == 0 && t.cc == .z) = true := by decide
/-- V12, S4. -/
theorem test_addImm_wraps :
    nextIs (step ((stateAt 0x3000 0x1021).setReg 0 0x7FFF))
      (fun t => t.reg 0 == 0x8000 && t.cc == .n && t.run == .running && t.diagnostic == none) = true := by decide
/-- V13. -/
theorem test_addImm_negative :
    nextIs (step (stateAt 0x3000 0x127F)) (fun t => t.reg 1 == 0xFFFF && t.cc == .n) = true := by decide
/-- V16. -/
theorem test_andReg :
    nextIs (step (((stateAt 0x3000 0x5042).setReg 1 0xF0F0).setReg 2 0xFF00))
      (fun t => t.reg 0 == 0xF000 && t.cc == .n) = true := by decide
/-- V18, V18b. -/
theorem test_andImm_masks :
    nextIs (step ((stateAt 0x3000 0x506F).setReg 1 0xABCD)) (fun t => t.reg 0 == 0x000D && t.cc == .p) = true
      ∧ nextIs (step ((stateAt 0x3000 0x5070).setReg 1 0xABCD)) (fun t => t.reg 0 == 0xABC0 && t.cc == .n) = true := by
  decide
/-- V19, V19c. -/
theorem test_not :
    nextIs (step ((stateAt 0x3000 0x9B3F).setReg 4 0x1232)) (fun t => t.reg 5 == 0xEDCD && t.cc == .n) = true
      ∧ nextIs (step ((stateAt 0x3000 0x92BF).setReg 2 0xFFFF)) (fun t => t.reg 1 == 0 && t.cc == .z) = true := by decide

/-! ## Data movement -/

/-- V30, V31. -/
theorem test_ld :
    nextIs (step (stateAt 0x3000 0x23FF)) (fun t => t.reg 1 == 0x23FF && t.cc == .p && t.pc == 0x3001) = true
      ∧ nextIs (step (poke (stateAt 0xFFFE 0x2201) [(0x0000, 0x00AA)]))
          (fun t => t.reg 1 == 0x00AA && t.cc == .p && t.pc == 0xFFFF) = true := by decide
/-- V60, V60b. -/
theorem test_ld_keyboard_status :
    nextIs (step (typed (stateAt 0xFDFE 0x2001) [0x61]))
        (fun t => t.reg 0 == 0x8000 && t.cc == .n && t.input.script == [.char 0x61]) = true
      ∧ nextIs (step { stateAt 0xFDFE 0x2001 with cc := .p }) (fun t => t.reg 0 == 0 && t.cc == .z) = true := by decide
/-- V32, S5. -/
theorem test_ldi :
    nextIs (step (poke (stateAt 0x3000 0xA405) [(0x3006, 0x3100), (0x3100, 0x002A)]))
      (fun t => t.reg 2 == 0x002A && t.cc == .p) = true := by decide
/-- V61, V61b. -/
theorem test_ldi_keyboard_data :
    nextIs (step (typed (poke (stateAt 0x3000 0xA001) [(0x3002, 0xFE02)]) [0x61, 0x62]))
        (fun t => t.reg 0 == 0x0061 && t.cc == .p && t.input.script == [.char 0x62]) = true
      ∧ stopsWith (step (poke (stateAt 0x3000 0xA001) [(0x3002, 0xFE02)])) (.kbdrExhausted ⟨⟨[], .exhausted⟩, []⟩) = true := by decide
/-- V33, V34. -/
theorem test_ldr :
    nextIs (step (poke (stateAt 0x3000 0x647F) [(0xFFFF, 0x8001)])) (fun t => t.reg 2 == 0x8001 && t.cc == .n) = true
      ∧ nextIs (step ({ stateAt 0x3000 0x6240 with cc := .p }.setReg 1 0x4000))
          (fun t => t.reg 1 == 0 && t.cc == .z) = true := by decide
/-- V35, V35b. -/
theorem test_lea :
    nextIs (step (stateAt 0x9000 0xE1FE)) (fun t => t.reg 0 == 0x8FFF && t.cc == .n && t.pc == 0x9001) = true
      ∧ nextIs (step { stateAt 0xFFFF 0xE000 with cc := .p }) (fun t => t.reg 0 == 0 && t.cc == .z && t.pc == 0) = true := by
  decide
/-- V36: the store is what the next fetch reads. -/
theorem test_st_next_instruction :
    nextIs (step ((stateAt 0x3000 0x3A00).setReg 5 0x1021))
      (fun t => t.mem.readWord 0x3001 == 0x1021 && t.mem.readWord 0x3000 == 0x3A00 && t.pc == 0x3001) = true := by decide
/-- V62: a store to the status address does not change what it reads. -/
theorem test_st_keyboard_status :
    nextIs (step (typed ((stateAt 0xFDFE 0x3201).setReg 1 0x1234) [0x61]))
      (fun t => (match memRead 0xFE00 t with | .ok (v, _) => v == 0x8000 | .error _ => false)) = true := by decide
/-- V37. -/
theorem test_sti :
    nextIs (step (poke ((stateAt 0x3000 0xB601).setReg 3 0xCAFE) [(0x3002, 0x5000)]))
      (fun t => t.mem.readWord 0x5000 == 0xCAFE && t.mem.readWord 0x3002 == 0x5000 && t.cc == .z) = true := by decide
/-- V38, V39. -/
theorem test_str :
    nextIs (step ((stateAt 0x3000 0x76C0).setReg 3 0x6000)) (fun t => t.mem.readWord 0x6000 == 0x6000) = true
      ∧ nextIs (step (((stateAt 0x3000 0x7460).setReg 1 0x0010).setReg 2 0x7777))
          (fun t => t.mem.readWord 0xFFF0 == 0x7777) = true := by decide

/-! ## Control transfer -/

/-- V40, V41, V45b. -/
theorem test_br_taken_or_not :
    nextIs (step { stateAt 0x3005 0x03FD with cc := .p }) (fun t => t.pc == 0x3003 && t.cc == .p) = true
      ∧ nextIs (step (stateAt 0x3005 0x03FD)) (fun t => t.pc == 0x3006) = true
      ∧ nextIs (step (stateAt 0x3000 0x0E05)) (fun t => t.pc == 0x3006) = true := by decide
/-- V45, V45c, V45e. -/
theorem test_br_extremes :
    nextIs (step (stateAt 0x3000 0x01FF)) (fun t => t.pc == 0x3001) = true
      ∧ nextIs (step (stateAt 0x3000 0x0500)) (fun t => t.pc == 0x2F01) = true
      ∧ nextIs (step { stateAt 0x3000 0x0CFF with cc := .n }) (fun t => t.pc == 0x3100) = true := by decide
/-- V44b, V44c. -/
theorem test_jmp :
    nextIs (step ((stateAt 0x3000 0xC1C0).setReg 7 0x3002)) (fun t => t.pc == 0x3002 && t.reg 7 == 0x3002) = true
      ∧ nextIs (step ((stateAt 0x3000 0xCEBF).setReg 2 0x1234)) (fun t => t.pc == 0x1234) = true := by decide
/-- V42b, V46. -/
theorem test_jsr :
    nextIs (step (stateAt 0x3000 0x4C00)) (fun t => t.reg 7 == 0x3001 && t.pc == 0x2C01 && t.cc == .z) = true
      ∧ nextIs (step (stateAt 0xFFFF 0x4800)) (fun t => t.reg 7 == 0 && t.pc == 0) = true := by decide
/-- V43b. -/
theorem test_jsrr :
    nextIs (step ((stateAt 0x3003 0x4080).setReg 2 0x3005)) (fun t => t.reg 7 == 0x3004 && t.pc == 0x3005) = true := by
  decide
/-- V43, both values of the parameter. -/
theorem test_jsrr_base_seven :
    nextIs (step ((stateAt 0x3000 0x41C0).setReg 7 0x4000)) (fun t => t.reg 7 == 0x3001 && t.pc == 0x4000) = true
      ∧ nextIs (step ({ stateAt 0x3000 0x41C0 with
          cfg := { Config.standard with jsrrBaseRead := .afterLink } }.setReg 7 0x4000))
          (fun t => t.reg 7 == 0x3001 && t.pc == 0x3001) = true := by decide

/-! ## TRAP and the Illegal opcodes -/

/-- V54, V59. -/
theorem test_getc :
    nextIs (step (typed { (stateAt 0x3000 0xF020).setReg 0 0xFFFF with cc := .n } [0x6B]))
        (fun t => t.reg 0 == 0x006B && t.cc == .n && t.output == [] && t.input.script == [] && t.pc == 0x3001) = true
      ∧ nextIs (step ((stateAt 0x3000 0xF020).setReg 0 0xFFFF))
          (fun t => t.reg 0 == 0 && t.run == .running && t.diagnostic == none) = true := by decide
/-- V59b: the wait, and the same step after the host supplies the character. -/
theorem test_getc_waits :
    stopsWith (step (typed (stateAt 0x3000 0xF020) [] .openEnded)) (.waitsForInput ⟨⟨[], .openEnded⟩, []⟩) = true
      ∧ nextIs (step (supplyChar 0x21 (typed (stateAt 0x3000 0xF020) [] .openEnded))) (fun t => t.reg 0 == 0x0021) = true := by
  decide
/-- V55. -/
theorem test_out :
    nextIs (step ((stateAt 0x3000 0xF021).setReg 0 0x1241)) (fun t => t.output == [0x41] && t.reg 0 == 0x1241) = true := by
  decide
/-- V56. -/
theorem test_puts :
    nextIs (step (poke ((stateAt 0x3000 0xF022).setReg 0 0x3008) [(0x3008, 0x0048), (0x3009, 0x0069)]))
      (fun t => t.output == [0x48, 0x69] && t.reg 0 == 0x3008) = true := by decide
/-- V56b. -/
theorem test_puts_zero_low_byte :
    nextIs (step (poke ((stateAt 0x3000 0xF022).setReg 0 0x4000) [(0x4000, 0x4100), (0x4001, 0x0141)]))
      (fun t => t.output == [0x00, 0x41]) = true := by decide
/-- V57, V57b. -/
theorem test_in :
    nextIs (step (typed { stateAt 0x3000 0xF023 with cfg := { Config.standard with inPrompt := [0x3F, 0x20] } } [0x79]))
        (fun t => t.output == [0x3F, 0x20, 0x79] && t.reg 0 == 0x0079 && t.cc == .z) = true
      ∧ nextIs (step ((stateAt 0x3000 0xF023).setReg 0 0x1234)) (fun t => t.output == [0x00] && t.reg 0 == 0) = true := by
  decide
/-- A state whose LDI finds the keyboard at its pointer's address 0x0041, and, given the pointer 0x0041, at its data's. -/
def ldiTwiceAtKeyboard : State := { stateAt 0x0040 0xA000 with cfg := { Config.standard with kbdrAddr := 0x0041 } }

/-- What a held step has done (R78): IN has put its prompt, and an LDI whose pointer came from the keyboard has taken it. -/
theorem test_held_steps :
    stopsWith (step (typed { stateAt 0x3000 0xF023 with cfg := { Config.standard with inPrompt := [0x3F, 0x20] } } [] .openEnded))
        (.waitsForInput ⟨⟨[], .openEnded⟩, [0x3F, 0x20]⟩) = true
      ∧ stopsWith (step (typed ldiTwiceAtKeyboard [0x41] .openEnded)) (.waitsForInput ⟨⟨[], .openEnded⟩, []⟩) = true := by
  decide
/-- V58, V58b. -/
theorem test_putsp :
    nextIs (step (poke ((stateAt 0x3000 0xF024).setReg 0 0x4000) [(0x4000, 0x6548), (0x4001, 0x006C), (0x4002, 0x4141)]))
        (fun t => t.output == [0x48, 0x65, 0x6C]) = true
      ∧ nextIs (step (poke ((stateAt 0x3000 0xF024).setReg 0 0x4000) [(0x4000, 0x4100)]))
          (fun t => t.output == []) = true := by decide
/-- V50, V50b, with a notice. -/
theorem test_halt :
    nextIs (step { stateAt 0x3006 0xF025 with cfg := { Config.standard with haltNotice := [0x21] } })
        (fun t => t.run == .halted && t.pc == 0x3007 && t.diagnostic == none && t.output == [0x21]) = true
      ∧ nextIs (step (stateAt 0x3000 0xFF25)) (fun t => t.run == .halted && t.pc == 0x3001) = true := by decide
/-- V52, V52b at both edges of the recognised vectors. -/
theorem test_trap_unknown :
    nextIs (step ((stateAt 0x3000 0xF026).setReg 0 0x0041))
        (fun t => t.run == .halted && t.diagnostic == some ⟨0x3000, 0xF026, .unknownTrapVector 0x26⟩ && t.pc == 0x3001
          && t.reg 0 == 0x0041 && t.output == []) = true
      ∧ nextIs (step (stateAt 0x3000 0xF01F))
          (fun t => t.diagnostic == some ⟨0x3000, 0xF01F, .unknownTrapVector 0x1F⟩) = true := by decide
/-- V51. -/
theorem test_rti :
    nextIs (step ({ stateAt 0x3001 0x8FFF with cc := .p }.setReg 0 0x0007))
      (fun t => t.run == .halted && t.diagnostic == some ⟨0x3001, 0x8FFF, .illegalInstruction⟩ && t.pc == 0x3002
        && t.reg 0 == 0x0007 && t.cc == .p) = true := by decide
/-- V53. -/
theorem test_reserved :
    nextIs (step (stateAt 0x4000 0xDABC))
      (fun t => t.run == .halted && t.diagnostic == some ⟨0x4000, 0xDABC, .illegalInstruction⟩ && t.pc == 0x4001) = true := by
  decide

/-! ## The step, the host, the table -/

/-- V63: a fetch from the data address consumes a character and executes it. -/
theorem test_fetch_from_keyboard :
    nextIs (step (typed { State.reset with pc := 0xFE02 } [0x21, 0x5A]))
      (fun t => t.pc == 0xFE03 && t.input.script == [.char 0x5A]) = true := by decide
/-- V72: no character is consumed by a halted machine whose pc is the data address. -/
theorem test_halted_consumes_nothing :
    nextIs (step (typed { State.reset with pc := 0xFE02, run := .halted } [0x21]))
      (fun t => t.pc == 0xFE02 && t.input.script == [.char 0x21]) = true := by decide
/-- A poll while nothing waits sees the moment pass; the next one sees the character (R33). -/
theorem test_poll_then_ready :
    (let s : State := { State.reset with input := ⟨[.pause, .char 0x61], .exhausted⟩ }
     (kbsrRead s).1 = 0x0000 ∧ (kbsrRead (kbsrRead s).2).1 = 0x8000) := by decide
/-- V71: the edges of the load. -/
theorem test_load_edges :
    nextIs (load 0xFFFF [0x1111] State.reset) (fun t => t.mem.readWord 0xFFFF == 0x1111) = true
      ∧ load 0xFFFF [0x1111, 0x2222] State.reset = .refused .imageLoadError
      ∧ nextIs (load 0xFFFE [0x1111, 0x2222] State.reset) (fun t => t.mem.readWord 0xFFFF == 0x2222) = true
      ∧ load 0x1234 [] State.reset = .next State.reset := by
  refine ⟨by decide, ?_, by decide, rfl⟩
  unfold load
  rw [if_pos (by decide)]
/-- V70, V73. -/
theorem test_boot_file :
    nextIs (bootFile [0x30, 0x00, 0x10, 0x21, 0xF0, 0x25])
      (fun t => t.pc == 0x3000 && t.mem.readWord 0x3000 == 0x1021 && t.mem.readWord 0x3001 == 0xF025 && t.cc == .z
        && t.run == .running && t.reg 0 == 0) = true := by decide
/-- The rows of the table do not overlap (R62). -/
theorem test_table_rows_disjoint :
    List.Pairwise (fun r r' : TableRow => r.pattern &&& r'.mask ≠ r'.pattern &&& r.mask) opcodeTable := by decide
/-- Each row's pattern, placed where reset fetches, is decoded to its row and run to a next state. -/
theorem test_rows_run_from_reset :
    opcodeTable.all (fun r =>
      (match decodeTableWord 16 r.pattern.toNat with
        | some i => tableRow i == r
        | none => false)
      && nextIs (step (State.reset.withFetchWord 16 r.pattern.toNat)) (fun t => t.fetchWord == r.pattern)) = true := by
  decide
/-- The placed word is fetched even when the pc is a device address. -/
theorem test_withFetchWord_avoids_devices :
    nextIs (step ({ State.reset with pc := 0xFE02, run := .halted }.withFetchWord 16 0x1027))
      (fun t => t.reg 0 == 7) = true := by decide
/-- A run is cancelled between steps, and stops at HALT (R73). -/
theorem test_run_loop :
    runLoop [true] (stateAt 0x3000 0xF025) = .cancelled (stateAt 0x3000 0xF025)
      ∧ (match runLoop [false, false] (stateAt 0x3000 0xF025) with | .stopped t => t.run == .halted | _ => false) = true :=
  ⟨rfl, by decide⟩

/-! ## Witnesses: for each statement with hypotheses, a state and operands that meet them together, clause by clause -/

/-- EveryFormatDecodesFieldByField: a word for each of the 19 clauses. -/
theorem witness_formats :
    hasOpcode 0b0000 0x0FFF ∧ hasOpcode 0b0001 0x1FDF ∧ (0x1FDF#16).getLsbD 5 = false
      ∧ hasOpcode 0b0001 0x1020 ∧ (0x1020#16).getLsbD 5 = true ∧ hasOpcode 0b0010 0x2FFF ∧ hasOpcode 0b0011 0x3000
      ∧ hasOpcode 0b0100 0x4800 ∧ (0x4800#16).getLsbD 11 = true ∧ hasOpcode 0b0100 0x47FF ∧ (0x47FF#16).getLsbD 11 = false
      ∧ hasOpcode 0b0101 0x5FDF ∧ (0x5FDF#16).getLsbD 5 = false ∧ hasOpcode 0b0101 0x5020 ∧ (0x5020#16).getLsbD 5 = true
      ∧ hasOpcode 0b0110 0x6FFF ∧ hasOpcode 0b0111 0x7000 ∧ hasOpcode 0b1000 0x8FFF ∧ hasOpcode 0b1001 0x9000
      ∧ hasOpcode 0b1010 0xAFFF ∧ hasOpcode 0b1011 0xB000 ∧ hasOpcode 0b1100 0xCFFF ∧ hasOpcode 0b1101 0xD000
      ∧ hasOpcode 0b1110 0xEFFF ∧ hasOpcode 0b1111 0xF000 := by decide

/-- DecodeOfEncodeIsTheInstruction: well-formed instructions at the ends of their fields' ranges. -/
theorem witness_wellFormed :
    (Instr.br true true true 0x00FF).WellFormed ∧ (Instr.addImm 7 7 0x000F).WellFormed ∧ (Instr.jsr 0x03FF).WellFormed
      ∧ (Instr.ldr 7 0 0xFFE0).WellFormed ∧ (Instr.trap 0xFF).WellFormed ∧ (Instr.rti 0x8000).WellFormed := by decide

/-- IgnoredBitsAreIgnored: two different words that agree on the used bits. -/
theorem witness_ignored_bits :
    0x1042#16 &&& usedBits (decodeWord 0x1042) = 0x105A#16 &&& usedBits (decodeWord 0x1042)
      ∧ 0xF025#16 &&& usedBits (decodeWord 0xF025) = 0xFF25#16 &&& usedBits (decodeWord 0xF025) := by decide

/-- IllegalEncodingsExactly: the first and last words of both opcodes, and vectors at the edges of the recognised ones. -/
theorem witness_illegal_words :
    hasOpcode 0b1000 0x8000 ∧ hasOpcode 0b1000 0x8FFF ∧ hasOpcode 0b1101 0xD000 ∧ hasOpcode 0b1101 0xDFFF
      ∧ ¬ knownVector 0x1F ∧ ¬ knownVector 0x26 ∧ ¬ knownVector 0x00 ∧ ¬ knownVector 0xFF := by decide

/-- OpcodeTableRowsPartitionTheWords: a row and a word that selects it. -/
theorem witness_row : (⟨0xF020, 0x1020⟩ : TableRow) ∈ opcodeTable ∧ (⟨0xF020, 0x1020⟩ : TableRow).selects 0x1065 := by decide

/-- ConditionWrittenByTheSevenOnly, OnlyTheDestinationIsWritten, PcAfterTheStep, OnlyStoresChangeMemory,
EngineStateChangesOnlyAtTheEnd: instructions that answer next states, of each side of each clause. -/
theorem witness_exec_next :
    exec (.addReg 0 1 2) State.reset = .next (State.reset.writeDest 0 0) ∧ flagDestOf (.addReg 0 1 2) = some 0
      ∧ exec (.jsr 1) State.reset = .next ((State.reset.setReg 7 0).setPc 1) ∧ flagDestOf (.jsr 1) = none
      ∧ destOf (.jsr 1) ≠ some 0 ∧ isTransfer (.addReg 0 1 2) = false ∧ isStore (.jsr 1) = false
      ∧ ¬ endsRun (.jsr 1) ∧ exec (.jmp 3) State.reset = .next (State.reset.setPc 0)
      ∧ exec (.jsrr 7) State.reset = .next ((State.reset.setReg 7 0).setPc 0)
      ∧ exec (.br false true false 5) State.reset = .next (State.reset.setPc 5)
      ∧ exec (.trap 0x25) State.reset = .next (haltCleanly (State.reset.put [])) := by
  refine ⟨rfl, rfl, rfl, rfl, by decide, rfl, rfl, ?_, rfl, rfl, rfl, rfl⟩
  rintro (h | ⟨_, h, _⟩ | ⟨_, h | h⟩) <;> cases h

/-- OnlyBrReadsTheCondition: an instruction that is not BR. -/
theorem witness_not_br : ∀ n z p off, Instr.st 0 0 ≠ .br n z p off := by
  intro n z p off h
  cases h

/-- LdCompletes, LdrCompletes, StiCompletes, LdiCompletes: reads with an answer at a plain address, at the status address and
at the data address, and two in a row. -/
theorem witness_reads :
    memRead (State.reset.pc + 0xFFFF) State.reset = .ok (0, State.reset)
      ∧ memRead (State.reset.reg 1 + 0xFE00) State.reset = .ok (0x0000, State.reset)
      ∧ memRead (State.reset.pc + 0xFE02) (typed State.reset [0x61]) = .ok (0x0061, State.reset)
      ∧ memRead 0x0061 State.reset = .ok (0, State.reset) := ⟨rfl, rfl, rfl, rfl⟩

/-- StopsOnlyOnWaitOrEndlessString: each of the two waits stops an instruction. -/
theorem witness_stops :
    exec (.ld 0 0xFE02) State.reset = .fault (.kbdrExhausted ⟨⟨[], .exhausted⟩, []⟩)
      ∧ exec (.ld 0 0xFE02) (typed State.reset [] .openEnded) = .fault (.waitsForInput ⟨⟨[], .openEnded⟩, []⟩)
      ∧ exec (.trap 0x20) (typed State.reset [] .openEnded) = .fault (.waitsForInput ⟨⟨[], .openEnded⟩, []⟩) :=
  ⟨rfl, rfl, rfl⟩

/-- ChannelsOnlyMoveForward, SuppliedCharacterEndsTheWait: steps that wait and that a character completes, one that waits again
after taking the first character, and a channel the host may declare exhausted. -/
theorem witness_held :
    stopsWith (step (typed (stateAt 0x3000 0xF023) [] .openEnded)) (.waitsForInput ⟨⟨[], .openEnded⟩, []⟩) = true
      ∧ nextIs (step (supplyChar 0x21 (typed (stateAt 0x3000 0xF023) [] .openEnded))) (fun t => t.output == [0x21]) = true
      ∧ nextIs (step (supplyChar 0x21 (typed ldiTwiceAtKeyboard [0x41] .openEnded))) (fun t => t.input.script == []) = true
      ∧ stopsWith (step (typed ldiTwiceAtKeyboard [] .openEnded)) (.waitsForInput ⟨⟨[], .openEnded⟩, []⟩) = true
      ∧ stopsWith (step (supplyChar 0x41 (typed ldiTwiceAtKeyboard [] .openEnded)))
          (.waitsForInput ⟨⟨[], .openEnded⟩, []⟩) = true
      ∧ nextChar State.reset.input.script = none := by decide

/-- BrCompletes: a taken and a not taken branch; JsrrCompletes: base 7 under both orders, and another base. -/
theorem witness_transfers :
    (true = true ∧ State.reset.cc = .z) ∧ ¬ (true = true ∧ State.reset.cc = .n)
      ∧ State.reset.cfg.jsrrBaseRead = .beforeLink
      ∧ ({ State.reset with cfg := { Config.standard with jsrrBaseRead := .afterLink } } : State).cfg.jsrrBaseRead = .afterLink
      ∧ (6 : RegIdx) ≠ 7 := by decide

/-- GetcCompletes, InCompletes, KeyboardReads, CharacterReadAnswersSentinel, SuppliedCharacterEndsTheWait: a character (after a
pause too), an exhausted channel, an open one with nothing to come. -/
theorem witness_channels :
    nextChar [.pause, .char 0xFF] = some (0xFF, []) ∧ nextChar State.reset.input.script = none
      ∧ State.reset.input.ending = .exhausted ∧ (typed State.reset [] .openEnded).input.ending = .openEnded
      ∧ nextChar (typed State.reset [] .openEnded).input.script = none := by decide

/-- PutsWritesTheString: the empty string at reset, and a string of one word that wraps from 0xFFFF to 0x0000. -/
theorem witness_puts :
    ¬ State.reset.cfg.isDevice (State.reset.reg 0 + BitVec.ofNat 16 0)
      ∧ State.reset.mem.readWord (State.reset.reg 0 + BitVec.ofNat 16 0) = 0
      ∧ (let s := poke (State.reset.setReg 0 0xFFFF) [(0xFFFF, 0x4141)]
         ¬ s.cfg.isDevice (s.reg 0 + BitVec.ofNat 16 0) ∧ s.mem.readWord (s.reg 0 + BitVec.ofNat 16 0) = 0x4141
           ∧ ¬ s.cfg.isDevice (s.reg 0 + BitVec.ofNat 16 1) ∧ s.mem.readWord (s.reg 0 + BitVec.ofNat 16 1) = 0) := by decide

/-- PutspWritesTheString: a full word and then a word with a zero high byte; and a word with a zero low byte. -/
theorem witness_putsp :
    (let s := poke (State.reset.setReg 0 0x4000) [(0x4000, 0x6548), (0x4001, 0x006C)]
     ¬ s.cfg.isDevice (s.reg 0 + BitVec.ofNat 16 0) ∧ s.mem.readWord (s.reg 0 + BitVec.ofNat 16 0) = 0x6548
       ∧ (0x6548#16).extractLsb' 0 8 ≠ 0#8 ∧ (0x6548#16).extractLsb' 8 8 ≠ 0#8
       ∧ ¬ s.cfg.isDevice (s.reg 0 + BitVec.ofNat 16 1) ∧ s.mem.readWord (s.reg 0 + BitVec.ofNat 16 1) = 0x006C
       ∧ (0x006C#16).extractLsb' 8 8 = 0#8 ∧ (0x4100#16).extractLsb' 0 8 = 0#8) := by decide

/-- UnknownVectorIsFatal, UnknownTrapVectorWhenAndOnlyWhen: vectors just outside on both sides, and the ends. -/
theorem witness_unknown_vectors :
    ((0x1F#8).toNat < 0x20) ∧ 0x25 < (0x26#8).toNat ∧ (0x00#8).toNat < 0x20 ∧ 0x25 < (0xFF#8).toNat
      ∧ decodeWord 0xF01F = .trap 0x1F ∧ decodeWord 0xF026 = .trap 0x26 := by decide

/-- TrapChangesOnlyR0AndChannels: a TRAP that answers a next state, with vectors of each clause. -/
theorem witness_trap_next :
    exec (.trap 0x21) State.reset = .next (State.reset.put [0]) ∧ (0x21#8 ≠ 0x20 ∧ 0x21#8 ≠ 0x23)
      ∧ 0x21#8 ≠ 0x25 ∧ knownVector 0x21 ∧ knownVector 0x20 ∧ knownVector 0x25 := ⟨rfl, by decide⟩

/-- ScanBoundIsNoLimit: scans of one word that end, and one that stops for another reason than its length. -/
theorem witness_scans :
    scanString putsWord 1 (State.reset.reg 0) State.reset = .ok (State.reset.put [])
      ∧ scanString putspWord 1 (State.reset.reg 0) State.reset = .ok (State.reset.put [])
      ∧ scanString putsWord 1 ((State.reset.setReg 0 0xFE02).reg 0) (State.reset.setReg 0 0xFE02)
          = .error (.kbdrExhausted ⟨⟨[], .exhausted⟩, []⟩)
      ∧ scanString putspWord 1 ((State.reset.setReg 0 0xFE02).reg 0) (State.reset.setReg 0 0xFE02)
          = .error (.kbdrExhausted ⟨⟨[], .exhausted⟩, []⟩)
      ∧ ∀ left, Fault.kbdrExhausted ⟨⟨[], .exhausted⟩, []⟩ ≠ .endlessService left := ⟨rfl, rfl, rfl, rfl, fun _ h => by cases h⟩

/-- IllegalInstructionWhenAndOnlyWhen, UnknownTrapVectorWhenAndOnlyWhen, RunEndsInExactlyThreeWays: a running machine with no
diagnostic, a fetch with an answer, and a step that records each kind of diagnostic. -/
theorem witness_fatal_steps :
    (stateAt 0x3001 0x8FFF).run = .running ∧ (stateAt 0x3001 0x8FFF).diagnostic = none
      ∧ fetch (stateAt 0x3001 0x8FFF)
          = .ok (0x8FFF, { stateAt 0x3001 0x8FFF with pc := 0x3002, fetchAddr := 0x3001, fetchWord := 0x8FFF })
      ∧ nextIs (step (stateAt 0x3001 0x8FFF)) (fun t => t.diagnostic == some ⟨0x3001, 0x8FFF, .illegalInstruction⟩) = true
      ∧ nextIs (step (stateAt 0x3001 0xF026))
          (fun t => t.diagnostic == some ⟨0x3001, 0xF026, .unknownTrapVector 0x26⟩) = true :=
  ⟨rfl, rfl, rfl, by decide, by decide⟩

/-- StepRunsTheDecodedInstruction: a read at the pc with an answer, one without, a halted machine, and bytes that decode. -/
theorem witness_step :
    memRead (stateAt 0x3000 0x1065).pc (stateAt 0x3000 0x1065) = .ok (0x1065, stateAt 0x3000 0x1065)
      ∧ memRead ({ State.reset with pc := 0xFE02 } : State).pc { State.reset with pc := 0xFE02 }
          = .error (.kbdrExhausted ⟨⟨[], .exhausted⟩, []⟩)
      ∧ ({ State.reset with run := .halted } : State).run = .halted
      ∧ ¬ (stateAt 0x3000 0x1065).cfg.isDevice (stateAt 0x3000 0x1065).pc
      ∧ decode [(stateAt 0x3000 0x1065).mem.readByte (2 * (stateAt 0x3000 0x1065).pc.toNat),
          (stateAt 0x3000 0x1065).mem.readByte (2 * (stateAt 0x3000 0x1065).pc.toNat + 1)] = .ok (.addImm 0 1 5, []) :=
  ⟨rfl, rfl, rfl, by decide, rfl⟩

/-- HaltedMachineStandsStill, ChannelsOnlyMoveForward, StepKeepsTheInvariant, CancellationFindsTheStateBetweenSteps: states
that meet the invariant and answer next states. -/
theorem witness_steps :
    step { State.reset with run := .halted } = .next { State.reset with run := .halted }
      ∧ step State.reset = .next { State.reset with pc := 1 } ∧ State.reset.mem.wf
      ∧ (State.reset.run = .running → State.reset.diagnostic = none)
      ∧ stepMany 2 State.reset = .next { State.reset with pc := 2, fetchAddr := 1 } :=
  ⟨rfl, rfl, by decide, fun _ => rfl, rfl⟩

/-- StepKeepsTheInvariant: a state whose diagnostic its word explains. -/
theorem witness_invariant : ({ State.reset with
    run := .halted, diagnostic := some ⟨0x3000, 0xF026, .unknownTrapVector 0x26⟩ } : State).Inv :=
  ⟨by decide, by decide, fun _ h => by cases h; exact ⟨by decide, by decide, by decide⟩⟩

/-- WordsBehindTheKeyboardAreUnobservable: two different states that are alike. -/
theorem witness_alike : Alike State.reset (memWrite 0xFE02 0x1234 State.reset) ∧ State.reset.mem ≠ (memWrite 0xFE02 0x1234 State.reset).mem :=
  ⟨⟨fun _ h => (Memory.readWord_writeWord_of_ne _ _ fun e => h (.inr e)).symm, rfl⟩, by decide⟩

/-- BusReadsWhatWasLastWritten: parameters that differ, a plain address next to a device's, two addresses. -/
theorem witness_bus : State.reset.cfg.wf ∧ ¬ State.reset.cfg.isDevice 0xFE01 ∧ ¬ State.reset.cfg.isDevice 0xFFFF
    ∧ (0xFE01 : Word) ≠ 0xFE00 := by decide

/-- CanonicalMemoryIsItsReads: two memories in canonical form that read the same. -/
theorem witness_canonical : Memory.wf [(0, 1), (131071, 255)] ∧ Memory.wf []
    ∧ ∀ k, Memory.readByte [(0, 1)] k = Memory.readByte (Memory.writeByte [] 0 1) k := ⟨by decide, by decide, fun _ => rfl⟩

/-- StoreIsSeenByTheNextFetch: each store at the word the next fetch reads. -/
theorem witness_stores :
    exec (.st 5 0) State.reset = .next (memWrite 0 0 State.reset) ∧ ¬ State.reset.cfg.isDevice (State.reset.pc + 0)
      ∧ (memWrite 0 0 State.reset).pc = State.reset.pc + 0
      ∧ exec (.str 5 1 0) State.reset = .next (memWrite 0 0 State.reset)
      ∧ (memWrite 0 0 State.reset).pc = State.reset.reg 1 + 0
      ∧ memRead (State.reset.pc + 3) State.reset = .ok (0, State.reset)
      ∧ exec (.sti 5 3) State.reset = .next (memWrite 0 0 State.reset) := ⟨rfl, by decide, rfl, rfl, rfl, rfl, rfl⟩

/-- ZeroWordOnlyAdvances: the reset state. -/
theorem witness_zero_word :
    State.reset.run = .running ∧ ¬ State.reset.cfg.isDevice State.reset.pc ∧ State.reset.mem.readWord State.reset.pc = 0 := by
  decide

/-- LoadCopiesTheImage, BootedStateIsTheResetTable: one word past the end, exactly at the end, and the empty image. -/
theorem witness_load :
    (0xFFFF#16).toNat + [0x1111#16, 0x2222#16].length > 65536 ∧ (0xFFFE#16).toNat + [0x1111#16, 0x2222#16].length ≤ 65536
      ∧ (0xFFFF#16).toNat + ([] : List Word).length ≤ 65536
      ∧ ¬ State.reset.cfg.isDevice (BitVec.ofNat 16 ((0xFFFE#16).toNat + 1)) ∧ ¬ State.reset.cfg.isDevice 0x0000 := by decide

/-- ImageFileIsBigEndianWords: a file of odd length and one with no origin word. -/
theorem witness_bad_files : [0x30#8, 0x00#8, 0x10#8].length % 2 = 1 ∧ ([] : List Byte).length < 2 := by decide

end Sys2Proof.Tests
end

section
/-! PROOF. What an instruction does to the engine's own fields: the parameters, the record of the fetch, the run state and the
diagnostic (10_state.md R20, R21; 40_execute_cycle.md R71). -/

namespace Sys2Proof.Machine

/-- The fields of the engine are the same: the parameters (R5), the record of the fetch (R71), the run state (R20) and the
diagnostic (R21). -/
structure EngineSame (s t : State) : Prop where
  cfg : t.cfg = s.cfg
  fetchAddr : t.fetchAddr = s.fetchAddr
  fetchWord : t.fetchWord = s.fetchWord
  run : t.run = s.run
  diagnostic : t.diagnostic = s.diagnostic

theorem EngineSame.refl (s : State) : EngineSame s s := ⟨rfl, rfl, rfl, rfl, rfl⟩

theorem engineSame_setPc (s : State) (v : Word) : EngineSame s (s.setPc v) := ⟨rfl, rfl, rfl, rfl, rfl⟩

theorem engineSame_link (s : State) (v w : Word) : EngineSame s ((s.setReg 7 v).setPc w) := ⟨rfl, rfl, rfl, rfl, rfl⟩

theorem engineSame_writeDest (s : State) (ch : InputChannel) (dr : RegIdx) (v : Word) :
    EngineSame s (({ s with input := ch } : State).writeDest dr v) := ⟨rfl, rfl, rfl, rfl, rfl⟩

theorem engineSame_memWrite (s : State) (ch : InputChannel) (addr v : Word) :
    EngineSame s (memWrite addr v { s with input := ch }) := ⟨rfl, rfl, rfl, rfl, rfl⟩

theorem Served.engineSame {vec : Byte} {s t : State} (h : Served vec s t) : EngineSame s t :=
  ⟨h.cfg, h.fetchAddr, h.fetchWord, h.run, h.diagnostic⟩

theorem engineSame_of_loadInto {dr : RegIdx} {ea : Word} {s t : State} (h : loadInto dr ea s = .next t) :
    EngineSame s t := by
  obtain ⟨v, ch, rfl, -⟩ := loadInto_frame h
  exact engineSame_writeDest s ch dr v

theorem engineSame_of_execLdi {dr : RegIdx} {off : Word} {s t : State} (h : execLdi dr off s = .next t) :
    EngineSame s t := by
  obtain ⟨v, ch, rfl, -⟩ := execLdi_frame h
  exact engineSame_writeDest s ch dr v

theorem engineSame_of_execSti {sr : RegIdx} {off : Word} {s t : State} (h : execSti sr off s = .next t) :
    EngineSame s t := by
  obtain ⟨ptr, ch, -, rfl, -⟩ := execSti_frame h
  exact engineSame_memWrite s ch ptr (s.reg sr)

theorem engineSame_of_execBr {n z p : Bool} {off : Word} {s t : State} (h : execBr n z p off s = .next t) :
    EngineSame s t := by
  cases h
  split
  · exact engineSame_setPc s _
  · exact EngineSame.refl s

theorem engineSame_of_execJsrr {base : RegIdx} {s t : State} (h : execJsrr base s = .next t) : EngineSame s t := by
  rw [execJsrr_eq] at h
  cases h
  exact engineSame_link s _ _

/-- All that executing `i` in `s` can do to the engine's fields: leave them, end the run by HALT (R144), or end it by one of
the two exceptions (R132, R133). -/
inductive EngineMove (i : Instr) (s : State) : State → Prop where
  | goesOn {t : State} : ¬ endsRun i → EngineSame s t → EngineMove i s t
  | haltsCleanly {s' : State} : i = .trap 0x25 → EngineSame s s' → EngineMove i s (haltCleanly s')
  | unknownVector {vec : Byte} : i = .trap vec → ¬ knownVector vec →
      EngineMove i s (raiseFatal (.unknownTrapVector vec) s)
  | illegal : (∃ raw, i = .rti raw ∨ i = .reserved raw) → EngineMove i s (raiseFatal .illegalInstruction s)

theorem EngineMove.endsRun_or_same {i : Instr} {s t : State} (h : EngineMove i s t) : endsRun i ∨ EngineSame s t := by
  cases h with
  | goesOn _ hs => exact .inr hs
  | haltsCleanly hi _ => exact .inl (.inl hi)
  | unknownVector hi hk => exact .inl (.inr (.inl ⟨_, hi, hk⟩))
  | illegal hi => exact .inl (.inr (.inr hi))

theorem execTrap_engineMove {vec : Byte} {s t : State} (h : execTrap vec s = .next t) : EngineMove (.trap vec) s t := by
  obtain ⟨s', hs, ⟨hk, hv, rfl⟩ | ⟨rfl, rfl⟩ | ⟨hk, -, rfl⟩⟩ := execTrap_next h
  · refine .goesOn ?_ hs.engineSame
    rintro (he | ⟨vec', he, hk'⟩ | ⟨raw, he | he⟩) <;> cases he
    · exact hv rfl
    · exact hk' hk
  · exact .haltsCleanly rfl hs.engineSame
  · exact .unknownVector rfl hk

/-- The engine's fields over all constructors (R74). -/
theorem exec_engineMove {i : Instr} {s t : State} (h : exec i s = .next t) : EngineMove i s t := by
  cases i with
  | br n z p off => exact .goesOn (by simp) (engineSame_of_execBr h)
  | addReg dr sr1 sr2 => cases h; exact .goesOn (by simp) (engineSame_writeDest s s.input dr _)
  | addImm dr sr1 imm => cases h; exact .goesOn (by simp) (engineSame_writeDest s s.input dr _)
  | andReg dr sr1 sr2 => cases h; exact .goesOn (by simp) (engineSame_writeDest s s.input dr _)
  | andImm dr sr1 imm => cases h; exact .goesOn (by simp) (engineSame_writeDest s s.input dr _)
  | notReg dr sr => cases h; exact .goesOn (by simp) (engineSame_writeDest s s.input dr _)
  | lea dr off => cases h; exact .goesOn (by simp) (engineSame_writeDest s s.input dr _)
  | ld dr off => exact .goesOn (by simp) (engineSame_of_loadInto h)
  | ldr dr base off => exact .goesOn (by simp) (engineSame_of_loadInto h)
  | ldi dr off => exact .goesOn (by simp) (engineSame_of_execLdi h)
  | st sr off => cases h; exact .goesOn (by simp) (engineSame_memWrite s s.input _ _)
  | str sr base off => cases h; exact .goesOn (by simp) (engineSame_memWrite s s.input _ _)
  | sti sr off => exact .goesOn (by simp) (engineSame_of_execSti h)
  | jmp base => cases h; exact .goesOn (by simp) (engineSame_setPc s _)
  | jsr off => cases h; exact .goesOn (by simp) (engineSame_link s _ _)
  | jsrr base => exact .goesOn (by simp) (engineSame_of_execJsrr h)
  | rti raw => cases h; exact .illegal ⟨raw, .inl rfl⟩
  | reserved raw => cases h; exact .illegal ⟨raw, .inr rfl⟩
  | trap vec => exact execTrap_engineMove h

/-- No instruction changes the parameters or the record of the fetch (R5, R71). -/
theorem EngineMove.cfg_fetch {i : Instr} {s t : State} (h : EngineMove i s t) :
    t.cfg = s.cfg ∧ t.fetchAddr = s.fetchAddr ∧ t.fetchWord = s.fetchWord := by
  cases h with
  | goesOn _ hs => exact ⟨hs.cfg, hs.fetchAddr, hs.fetchWord⟩
  | haltsCleanly _ hs => exact ⟨hs.cfg, hs.fetchAddr, hs.fetchWord⟩
  | unknownVector _ _ => exact ⟨rfl, rfl, rfl⟩
  | illegal _ => exact ⟨rfl, rfl, rfl⟩

/-- HALT leaves the diagnostic (R144, D24). -/
theorem EngineMove.diagnostic_of_halt {s t : State} (h : EngineMove (.trap 0x25) s t) : t.diagnostic = s.diagnostic := by
  cases h with
  | goesOn he _ => exact absurd (.inl rfl) he
  | haltsCleanly _ hs => exact hs.diagnostic
  | unknownVector hi hk => cases hi; exact absurd (by decide) hk
  | illegal hi => obtain ⟨raw, hi | hi⟩ := hi <;> cases hi

/-- Settles O49, from all that `exec` can do to the engine's fields. -/
theorem engineStateChangesOnlyAtTheEnd : Obligations.EngineStateChangesOnlyAtTheEnd := by
  intro i s t h
  have hm := exec_engineMove h
  obtain ⟨hcfg, haddr, hword⟩ := hm.cfg_fetch
  refine ⟨hcfg, haddr, hword, fun he => ?_, fun hi => ?_⟩
  · have hs := hm.endsRun_or_same.resolve_left he
    exact ⟨hs.run, hs.diagnostic⟩
  · subst hi
    exact hm.diagnostic_of_halt

end Sys2Proof.Machine
end

section
/-! PROOF. What an instruction can do to the whole state, said once over all constructors (40_execute_cycle.md R74), and the
statements on registers, the condition, the pc and the run that follow from it (10_state.md R12, R14, R17, R18, R20). -/

namespace Sys2Proof.Machine

/-! ## The effect of an instruction -/

/-- All that executing `i` in `s` can do: write a destination with its condition (R18), store a word (R39), move the pc with or
without a link (R14), serve a trap and go on or halt (R138), or raise one of the two exceptions (R133). -/
inductive Effect (i : Instr) (s : State) : State → Prop where
  | writesDest {dr : RegIdx} {v : Word} {ch : InputChannel} : flagDestOf i = some dr → MovedOn s.input ch →
      Effect i s (({ s with input := ch } : State).writeDest dr v)
  | stores {a v : Word} {ch : InputChannel} : isStore i = true → MovedOn s.input ch →
      Effect i s (memWrite a v { s with input := ch })
  | jumps {v : Word} : isTransfer i = true → Effect i s (s.setPc v)
  | links {v : Word} : isTransfer i = true → destOf i = some 7 → Effect i s ((s.setReg 7 s.pc).setPc v)
  | serves {vec : Byte} {s' : State} : i = .trap vec → Served vec s s' → Effect i s s'
  | haltsCleanly {vec : Byte} {s' : State} : i = .trap vec → Served vec s s' → Effect i s (haltCleanly s')
  | raises {reason : FatalReason} : endsRun i → Effect i s (raiseFatal reason s)

/-- A branch not taken writes the pc it has. -/
theorem execBr_eq (n z p : Bool) (off : Word) (s : State) :
    execBr n z p off s = .next (s.setPc (if taken n z p s.cc then pcRelative off s else s.pc)) := by
  unfold execBr
  split <;> rfl

theorem effect_of_loadInto {i : Instr} {dr : RegIdx} {ea : Word} {s t : State} (hi : flagDestOf i = some dr)
    (h : loadInto dr ea s = .next t) : Effect i s t := by
  obtain ⟨v, ch, rfl, hm⟩ := loadInto_frame h
  exact .writesDest hi hm

theorem effect_of_execLdi {dr : RegIdx} {off : Word} {s t : State} (h : execLdi dr off s = .next t) :
    Effect (.ldi dr off) s t := by
  obtain ⟨v, ch, rfl, hm⟩ := execLdi_frame h
  exact .writesDest rfl hm

theorem effect_of_execSti {sr : RegIdx} {off : Word} {s t : State} (h : execSti sr off s = .next t) :
    Effect (.sti sr off) s t := by
  obtain ⟨ptr, ch, -, rfl, hm⟩ := execSti_frame h
  exact .stores rfl hm

theorem effect_of_execBr {n z p : Bool} {off : Word} {s t : State} (h : execBr n z p off s = .next t) :
    Effect (.br n z p off) s t := by
  rw [execBr_eq] at h
  cases h
  exact .jumps rfl

theorem effect_of_execJsrr {base : RegIdx} {s t : State} (h : execJsrr base s = .next t) : Effect (.jsrr base) s t := by
  rw [execJsrr_eq] at h
  cases h
  exact .links rfl rfl

theorem effect_of_execTrap {vec : Byte} {s t : State} (h : execTrap vec s = .next t) : Effect (.trap vec) s t := by
  obtain ⟨s', hs, ⟨-, -, rfl⟩ | ⟨-, rfl⟩ | ⟨hk, -, rfl⟩⟩ := execTrap_next h
  · exact .serves rfl hs
  · exact .haltsCleanly rfl hs
  · exact .raises (.inr (.inl ⟨vec, rfl, hk⟩))

/-- The effect over all constructors (R74). -/
theorem exec_effect {i : Instr} {s t : State} (h : exec i s = .next t) : Effect i s t := by
  cases i with
  | br n z p off => exact effect_of_execBr h
  | addReg dr sr1 sr2 => cases h; exact .writesDest rfl (MovedOn.refl _)
  | addImm dr sr1 imm => cases h; exact .writesDest rfl (MovedOn.refl _)
  | andReg dr sr1 sr2 => cases h; exact .writesDest rfl (MovedOn.refl _)
  | andImm dr sr1 imm => cases h; exact .writesDest rfl (MovedOn.refl _)
  | notReg dr sr => cases h; exact .writesDest rfl (MovedOn.refl _)
  | lea dr off => cases h; exact .writesDest rfl (MovedOn.refl _)
  | ld dr off => exact effect_of_loadInto rfl h
  | ldr dr base off => exact effect_of_loadInto rfl h
  | ldi dr off => exact effect_of_execLdi h
  | st sr off => cases h; exact .stores rfl (MovedOn.refl _)
  | str sr base off => cases h; exact .stores rfl (MovedOn.refl _)
  | sti sr off => exact effect_of_execSti h
  | jmp base => cases h; exact .jumps rfl
  | jsr off => cases h; exact .links rfl rfl
  | jsrr base => exact effect_of_execJsrr h
  | rti raw => cases h; exact .raises (.inr (.inr ⟨raw, .inl rfl⟩))
  | reserved raw => cases h; exact .raises (.inr (.inr ⟨raw, .inr rfl⟩))
  | trap vec => exact effect_of_execTrap h

/-! ## The kinds of instruction exclude each other -/

/-- The seven that set the condition write the same register by R12's table. -/
theorem destOf_of_flagDestOf {i : Instr} {dr : RegIdx} (h : flagDestOf i = some dr) : destOf i = some dr := by
  cases i <;> cases h <;> rfl

theorem flagDestOf_of_isStore {i : Instr} (h : isStore i = true) : flagDestOf i = none := by
  cases i <;> cases h <;> rfl

theorem flagDestOf_of_isTransfer {i : Instr} (h : isTransfer i = true) : flagDestOf i = none := by
  cases i <;> cases h <;> rfl

theorem flagDestOf_of_endsRun {i : Instr} (h : endsRun i) : flagDestOf i = none := by
  obtain rfl | ⟨vec, rfl, -⟩ | ⟨raw, rfl | rfl⟩ := h <;> rfl

/-- A trap that has no destination by R12's table is neither GETC nor IN. -/
theorem ne_of_destOf_trap {vec : Byte} {r : RegIdx} (h : destOf (.trap vec) ≠ some r) :
    r ≠ 0 ∨ (vec ≠ 0x20 ∧ vec ≠ 0x23) := by
  rw [or_iff_not_imp_left, not_not, ← not_or]
  rintro rfl hv
  exact h (if_pos hv)

/-! ## What each effect writes -/

/-- No effect writes a register but the destination (R12). -/
theorem Effect.reg {i : Instr} {s t : State} (h : Effect i s t) {r : RegIdx} (hr : destOf i ≠ some r) :
    t.reg r = s.reg r := by
  cases h with
  | writesDest hi _ =>
    rw [destOf_of_flagDestOf hi] at hr
    exact State.reg_writeDest_of_ne _ _ fun e => hr (congrArg some e.symm)
  | stores _ _ => rfl
  | jumps _ => rfl
  | links _ hd =>
    rw [hd] at hr
    exact State.reg_setReg_of_ne _ _ fun e => hr (congrArg some e.symm)
  | serves hi hs =>
    subst hi
    exact hs.regs r (ne_of_destOf_trap hr)
  | haltsCleanly hi hs =>
    subst hi
    exact hs.regs r (ne_of_destOf_trap hr)
  | raises _ => rfl

/-- An effect sets the condition from the destination's new value, or the instruction is none of the seven and it stays
(R18). -/
theorem Effect.cc {i : Instr} {s t : State} (h : Effect i s t) :
    (∃ dr, flagDestOf i = some dr ∧ t.cc = condOf (t.reg dr)) ∨ (flagDestOf i = none ∧ t.cc = s.cc) := by
  cases h with
  | writesDest hi _ => exact .inl ⟨_, hi, by simp⟩
  | stores hi _ => exact .inr ⟨flagDestOf_of_isStore hi, rfl⟩
  | jumps hi => exact .inr ⟨flagDestOf_of_isTransfer hi, rfl⟩
  | links hi _ => exact .inr ⟨flagDestOf_of_isTransfer hi, rfl⟩
  | serves hi hs => exact .inr ⟨hi ▸ rfl, hs.cc⟩
  | haltsCleanly hi hs => exact .inr ⟨hi ▸ rfl, hs.cc⟩
  | raises hi => exact .inr ⟨flagDestOf_of_endsRun hi, rfl⟩

/-- No effect but a transfer's moves the pc (R14). -/
theorem Effect.pc {i : Instr} {s t : State} (h : Effect i s t) (hi : isTransfer i = false) : t.pc = s.pc := by
  cases h with
  | writesDest _ _ => rfl
  | stores _ _ => rfl
  | jumps ht => exact absurd ht (by simp [hi])
  | links ht _ => exact absurd ht (by simp [hi])
  | serves _ hs => exact hs.pc
  | haltsCleanly _ hs => exact hs.pc
  | raises _ => rfl

/-- Every effect keeps the canonical form of memory. -/
theorem Effect.mem_wf {i : Instr} {s t : State} (h : Effect i s t) (hw : s.mem.wf) : t.mem.wf := by
  cases h with
  | writesDest _ _ => exact hw
  | stores _ _ => exact Memory.writeWord_wf hw _ _
  | jumps _ => exact hw
  | links _ _ => exact hw
  | serves _ hs => exact hs.mem.symm ▸ hw
  | haltsCleanly _ hs => exact hs.mem.symm ▸ hw
  | raises _ => exact hw

/-- Every effect leaves the channels moved forward: the input consumed from the front, bytes appended to the output (R24,
R48). -/
theorem Effect.leftBy {i : Instr} {s t : State} (h : Effect i s t) : LeftBy s t.channels := by
  cases h with
  | writesDest _ hm => exact ⟨hm, [], (List.append_nil _).symm⟩
  | stores _ hm => exact ⟨hm, [], (List.append_nil _).symm⟩
  | jumps _ => exact leftBy_channels s
  | links _ _ => exact leftBy_channels s
  | serves _ hs => exact ⟨hs.input, hs.output⟩
  | haltsCleanly _ hs => exact ⟨hs.input, hs.output⟩
  | raises _ => exact leftBy_channels s

/-! ## Registers, condition, pc -/

/-- Settles O46, from the effect over all constructors. -/
theorem onlyTheDestinationIsWritten : Obligations.OnlyTheDestinationIsWritten :=
  fun _ _ _ h _ hr => (exec_effect h).reg hr

/-- Settles O8: it is the definition. -/
theorem setccByValue : Obligations.SetccByValue := fun _ _ => rfl

/-- Settles O9, from the effect over all constructors. -/
theorem conditionWrittenByTheSevenOnly : Obligations.ConditionWrittenByTheSevenOnly := by
  intro i s t h
  obtain ⟨dr, hd, hc⟩ | ⟨hd, hc⟩ := (exec_effect h).cc
  · refine ⟨fun dr' hd' => ?_, fun hn => ?_⟩
    · cases hd.symm.trans hd'
      exact hc
    · cases hd.symm.trans hn
  · refine ⟨fun dr' hd' => ?_, fun _ => hc⟩
    cases hd.symm.trans hd'

/-- A branch is taken when a requested condition holds (43_control_flow.md R110). -/
theorem taken_iff (n z p : Bool) (cc : Cond) :
    taken n z p cc = true ↔ n = true ∧ cc = .n ∨ z = true ∧ cc = .z ∨ p = true ∧ cc = .p := by
  cases cc <;> simp [taken]

/-- The base JSRR jumps to is the link only for base 7 read after it (R113). -/
theorem pc_of_execJsrr {base : RegIdx} {s t : State} (h : execJsrr base s = .next t) :
    t.pc = if base = 7 ∧ s.cfg.jsrrBaseRead = .afterLink then s.pc else s.reg base := by
  rw [execJsrr_eq] at h
  cases h
  cases s.cfg.jsrrBaseRead with
  | beforeLink => simp
  | afterLink => simp [State.reg_setReg]

/-- Settles O47: the fetch increments the pc, the effect says who moves it, and the four transfers say where to. -/
theorem pcAfterTheStep : Obligations.PcAfterTheStep := by
  refine ⟨fun s s' w h => ?_, fun i s t h hi => (exec_effect h).pc hi, fun n z p off s t h => ?_, fun base s t h => ?_,
    fun off s t h => ?_, fun base s t h => pc_of_execJsrr h⟩
  · obtain ⟨ch, -, -, rfl⟩ := fetch_ok h
    rfl
  · cases (execBr_eq n z p off s).symm.trans h
    exact if_congr (taken_iff n z p s.cc) rfl rfl
  · cases h
    rfl
  · cases h
    rfl

end Sys2Proof.Machine
end

section
/-! PROOF. The invariant and the end of a run: what a fetch and the executed instruction do to memory, the run state and the
diagnostic (10_state.md R19, R20, R21; 60_exceptions.md R131, R132). -/

namespace Sys2Proof.Machine

/-! ## The word of an instruction -/

/-- The decoder takes the opcode from the word's opcode field (30_encoding.md R61 (a)). -/
theorem opcode_decodeWord (w : Word) : (decodeWord w).opcode = opcodeOf (w.extractLsb' 12 4) := by
  unfold decodeWord
  cases opcodeOf (w.extractLsb' 12 4) with
  | add | jsr | and => dsimp only; split <;> rfl
  | _ => rfl

theorem hasOpcode_of_decodeWord {w : Word} {i : Instr} (h : decodeWord w = i) : hasOpcode (opcodeNumber i.opcode) w := by
  rw [← h, opcode_decodeWord, opcodeNumber_opcodeOf]

/-- The vector of a decoded TRAP is the word's low byte (R56). -/
theorem vector_of_decodeWord {w : Word} {vec : Byte} (h : decodeWord w = .trap vec) : vec = lowByte w := by
  have ho : opcodeOf (w.extractLsb' 12 4) = .trap := by rw [← opcode_decodeWord, h]; rfl
  unfold decodeWord at h
  rw [ho] at h
  exact (Instr.trap.inj h).symm

/-! ## The invariant -/

/-- The diagnostic an exception of a decoded instruction leaves is explained by the word fetched (R131, R132). -/
theorem explained_of_engineMove {i : Instr} {s t : State} (h : EngineMove i s t) (hi : decodeWord s.fetchWord = i)
    (hn : s.diagnostic = none) {d : Diagnostic} (hd : t.diagnostic = some d) : d.explained := by
  cases h with
  | goesOn _ hs => cases (hs.diagnostic.trans hn).symm.trans hd
  | haltsCleanly _ hs => cases (hs.diagnostic.trans hn).symm.trans hd
  | unknownVector hv hk =>
    cases hd
    subst hv
    exact ⟨hasOpcode_of_decodeWord hi, vector_of_decodeWord hi, hk⟩
  | illegal hr =>
    cases hd
    obtain ⟨raw, rfl | rfl⟩ := hr
    · exact .inl (hasOpcode_of_decodeWord hi)
    · exact .inr (hasOpcode_of_decodeWord hi)

/-- An instruction that leaves the machine running leaves the diagnostic. -/
theorem EngineMove.diagnostic_of_running {i : Instr} {s t : State} (h : EngineMove i s t) (hr : t.run = .running) :
    t.diagnostic = s.diagnostic := by
  cases h with
  | goesOn _ hs => exact hs.diagnostic
  | haltsCleanly _ _ => cases hr
  | unknownVector _ _ => cases hr
  | illegal _ => cases hr

/-- The execute phase of a running machine reaches the invariant, from a state that holds the word it executes. -/
theorem inv_of_exec {w : Word} {s t : State} (h : exec (decodeWord w) s = .next t) (hf : s.fetchWord = w)
    (hw : s.mem.wf) (hn : s.diagnostic = none) : t.Inv where
  memory := (exec_effect h).mem_wf hw
  running hr := ((exec_engineMove h).diagnostic_of_running hr).trans hn
  explained _ hd := explained_of_engineMove (exec_engineMove h) (congrArg decodeWord hf) hn hd

/-- Settles O42: a halted machine stands still; a running one fetches, which keeps memory and the diagnostic, and executes the
word it fetched. -/
theorem stepKeepsTheInvariant : Obligations.StepKeepsTheInvariant := by
  intro s t hs h
  obtain ⟨-, rfl⟩ | ⟨hr, w, s', hf, he⟩ := step_next h
  · exact hs
  · obtain ⟨ch, -, -, rfl⟩ := fetch_ok hf
    exact inv_of_exec he rfl hs.memory (hs.running hr)

/-- Settles O43. -/
theorem resetMeetsTheInvariant : Obligations.ResetMeetsTheInvariant where
  memory := reset_mem_wf
  running _ := rfl
  explained _ hd := nomatch hd

/-! ## The end of a run -/

/-- A running machine is halted by exactly the instructions that end the run (R20). -/
theorem EngineMove.halted_iff {i : Instr} {s t : State} (h : EngineMove i s t) (hr : s.run = .running) :
    t.run = .halted ↔ endsRun i := by
  cases h with
  | goesOn he hs => simp only [hs.run, hr, reduceCtorEq, he]
  | haltsCleanly hi _ => exact iff_of_true rfl (.inl hi)
  | unknownVector hi hk => exact iff_of_true rfl (.inr (.inl ⟨_, hi, hk⟩))
  | illegal hi => exact iff_of_true rfl (.inr (.inr hi))

@[simp] theorem supplyChar_run (c : Byte) (s : State) : (supplyChar c s).run = s.run := by
  unfold supplyChar
  split <;> rfl

@[simp] theorem declareExhausted_run (s : State) : (declareExhausted s).run = s.run := rfl

/-- A step of a halted machine answers that machine (40_execute_cycle.md R70). -/
theorem step_of_halted {s : State} (h : s.run = .halted) : step s = .next s := by
  unfold step
  rw [h]

/-- A step of a running machine whose fetch answers is the execution of the word fetched (R71). -/
theorem step_of_fetch {s s' : State} {w : Word} (h : s.run = .running) (hf : fetch s = .ok (w, s')) :
    step s = exec (decodeWord w) s' := by
  unfold step
  rw [h, hf]

theorem step_of_fetch_error {s : State} {f : Fault} (h : s.run = .running) (hf : fetch s = .error f) :
    step s = .fault f := by
  unfold step
  rw [h, hf]

/-- Settles O41. -/
theorem runEndsInExactlyThreeWays : Obligations.RunEndsInExactlyThreeWays := by
  refine ⟨rfl, fun s t hs h => ?_, fun s c hs => by simp [hs], fun s s' t w hr hf h => ?_⟩
  · rw [step_of_halted hs] at h
    cases h
    exact hs
  · rw [step_of_fetch hr hf] at h
    obtain ⟨ch, -, -, rfl⟩ := fetch_ok hf
    exact (exec_engineMove h).halted_iff hr

end Sys2Proof.Machine
end

section
/-! PROOF. The two noninterference statements, by one relation: states equal but for the condition and the words behind the
keyboard's addresses answer every read alike, and execute alike unless a branch looks at the condition (10_state.md R16, R19;
20_memory.md R35, R36). -/

namespace Sys2Proof.Machine

/-! ## States alike but for the condition -/

/-- The second state is the first with another condition and other words behind the keyboard's addresses. -/
inductive AlikeButCond (s : State) : State → Prop where
  | mk (m : Memory) (c : Cond) : sameVisible s.cfg s.mem m → AlikeButCond s { s with mem := m, cc := c }

theorem Alike.alikeButCond {s t : State} (h : Alike s t) : AlikeButCond s t := by
  rw [h.rest]
  exact .mk t.mem s.cc h.visible

theorem AlikeButCond.alike {s t : State} (h : AlikeButCond s t) (hc : s.cc = t.cc) : Alike s t := by
  cases h with
  | mk m c hv =>
    cases hc
    exact ⟨hv, rfl⟩

theorem alikeButCond_cc (s : State) (c : Cond) : AlikeButCond s { s with cc := c } := .mk s.mem c fun _ _ => rfl

theorem Alike.run {s t : State} (h : Alike s t) : t.run = s.run := (congrArg State.run h.rest).trans rfl

theorem Alike.cc {s t : State} (h : Alike s t) : t.cc = s.cc := (congrArg State.cc h.rest).trans rfl

section
variable {s t : State} (h : AlikeButCond s t)
include h

theorem AlikeButCond.pc : t.pc = s.pc := by cases h; rfl

theorem AlikeButCond.cfg : t.cfg = s.cfg := by cases h; rfl

theorem AlikeButCond.input : t.input = s.input := by cases h; rfl

theorem AlikeButCond.reg (r : RegIdx) : t.reg r = s.reg r := by cases h; rfl

theorem AlikeButCond.visible : sameVisible s.cfg s.mem t.mem := by
  cases h with
  | mk m c hv => exact hv

theorem AlikeButCond.withInput (ch : InputChannel) : AlikeButCond { s with input := ch } { t with input := ch } := by
  cases h with
  | mk m c hv => exact .mk m c hv

theorem AlikeButCond.withCond (c : Cond) : AlikeButCond { s with cc := c } t := by
  cases h with
  | mk m c' hv => exact .mk m c' hv

theorem AlikeButCond.fetched (a w : Word) :
    AlikeButCond { s with pc := a + 1#16, fetchAddr := a, fetchWord := w }
      { t with pc := a + 1#16, fetchAddr := a, fetchWord := w } := by
  cases h with
  | mk m c hv => exact .mk m c hv

theorem AlikeButCond.put (bs : List Byte) : AlikeButCond (s.put bs) (t.put bs) := by
  cases h with
  | mk m c hv => exact .mk m c hv

theorem AlikeButCond.setPc (v : Word) : AlikeButCond (s.setPc v) (t.setPc v) := by
  cases h with
  | mk m c hv => exact .mk m c hv

theorem AlikeButCond.setReg (r : RegIdx) (v : Word) : AlikeButCond (s.setReg r v) (t.setReg r v) := by
  cases h with
  | mk m c hv => exact .mk m c hv

theorem AlikeButCond.writeDest (dr : RegIdx) (v : Word) : AlikeButCond (s.writeDest dr v) (t.writeDest dr v) := by
  cases h with
  | mk m c hv => exact .mk m (condOf v) hv

theorem AlikeButCond.raiseFatal (reason : FatalReason) :
    AlikeButCond (raiseFatal reason s) (Machine.raiseFatal reason t) := by
  cases h with
  | mk m c hv => exact .mk m c hv

theorem AlikeButCond.haltCleanly : AlikeButCond (haltCleanly s) (Machine.haltCleanly t) := by
  cases h with
  | mk m c hv => exact .mk m c hv

end

/-- The same word stored in both memories leaves them the same where reads can see (R32). -/
theorem sameVisible_writeWord {c : Config} {m m' : Memory} (h : sameVisible c m m') (a v : Word) :
    sameVisible c (m.writeWord a v) (m'.writeWord a v) := by
  intro b hb
  by_cases e : b = a
  · subst e
    simp only [Memory.readWord_writeWord_self]
  · rw [Memory.readWord_writeWord_of_ne m v e, Memory.readWord_writeWord_of_ne m' v e, h b hb]

theorem AlikeButCond.memWrite {s t : State} (h : AlikeButCond s t) (a v : Word) :
    AlikeButCond (memWrite a v s) (Machine.memWrite a v t) := by
  cases h with
  | mk m c hv => exact .mk (m.writeWord a v) c (sameVisible_writeWord hv a v)

/-! ## Answers alike -/

/-- Two answers of an operation with a value alike: the same value and states alike but for the condition, or the same stop. -/
inductive AnswersAlike {α : Type} : Except Fault (α × State) → Except Fault (α × State) → Prop where
  | ok (a : α) {s t : State} (h : AlikeButCond s t) : AnswersAlike (.ok (a, s)) (.ok (a, t))
  | error (f : Fault) : AnswersAlike (.error f) (.error f)

/-- Two answers of a trap service alike. -/
inductive ServicesAlike : Except Fault State → Except Fault State → Prop where
  | ok {s t : State} (h : AlikeButCond s t) : ServicesAlike (.ok s) (.ok t)
  | error (f : Fault) : ServicesAlike (.error f) (.error f)

/-- Two results alike but for the condition. -/
inductive ResultsAlikeButCond : Result → Result → Prop where
  | next {s t : State} (h : AlikeButCond s t) : ResultsAlikeButCond (.next s) (.next t)
  | fault (f : Fault) : ResultsAlikeButCond (.fault f) (.fault f)

theorem answering_alikeButCond (outcome : TrapOutcome) {r r' : Except Fault State} (hr : ServicesAlike r r') :
    AnswersAlike (answering outcome r) (answering outcome r') := by
  cases hr with
  | ok h => exact .ok outcome h
  | error f => exact .error f

theorem onRead_alikeButCond {r r' : Except Fault (Word × State)} {go go' : Word → State → Result} (hr : AnswersAlike r r')
    (hg : ∀ v s t, AlikeButCond s t → ResultsAlikeButCond (go v s) (go' v t)) :
    ResultsAlikeButCond (onRead r go) (onRead r' go') := by
  cases hr with
  | ok v h => exact hg v _ _ h
  | error f => exact .fault f

/-! ## Reads -/

section
variable {s t : State} (h : AlikeButCond s t)
include h

theorem AlikeButCond.waiting : t.waiting = s.waiting := by cases h; rfl

theorem AlikeButCond.channels : t.channels = s.channels := by cases h; rfl

theorem kbsrRead_alikeButCond : AnswersAlike (.ok (kbsrRead s)) (.ok (kbsrRead t)) := by
  unfold kbsrRead
  rw [h.input]
  exact .ok _ (h.withInput _)

theorem kbdrRead_alikeButCond : AnswersAlike (kbdrRead s) (kbdrRead t) := by
  unfold kbdrRead
  rw [h.input, h.waiting]
  split
  · exact .ok _ (h.withInput _)
  · split <;> exact .error _

theorem readChar_alikeButCond : AnswersAlike (readChar s) (readChar t) := by
  unfold readChar
  rw [h.input, h.waiting]
  split
  · exact .ok _ (h.withInput _)
  · split
    · exact .ok _ (h.withInput _)
    · exact .error _

/-- No read through the bus tells the two states apart: the words that differ are answered by the keyboard (R31). -/
theorem memRead_alikeButCond (addr : Word) : AnswersAlike (memRead addr s) (memRead addr t) := by
  by_cases hd : s.cfg.isDevice addr
  · unfold memRead
    rw [h.cfg]
    split
    · exact kbsrRead_alikeButCond h
    · rename_i hn
      have hk := hd.resolve_left hn
      rw [if_pos hk, if_pos hk]
      exact kbdrRead_alikeButCond h
  · rw [memRead_plain hd, memRead_plain (h.cfg.symm ▸ hd), h.visible addr hd]
    exact .ok _ h

theorem fetch_alikeButCond : AnswersAlike (fetch s) (fetch t) := by
  unfold fetch
  rw [h.pc]
  exact match memRead s.pc s, memRead s.pc t, memRead_alikeButCond h s.pc with
  | _, _, .ok w h' => .ok w (h'.fetched s.pc w)
  | _, _, .error f => .error f

end

/-! ## Trap services -/

theorem scanString_alikeButCond (word : Word → List Byte × Bool) (n : Nat) (p : Word) {s t : State}
    (h : AlikeButCond s t) : ServicesAlike (scanString word n p s) (scanString word n p t) := by
  induction n generalizing p s t with
  | zero =>
    unfold scanString
    rw [h.channels]
    exact .error _
  | succ n ih =>
    unfold scanString
    exact match memRead p s, memRead p t, memRead_alikeButCond h p with
    | _, _, .error f => .error f
    | _, _, .ok w h' => by
      dsimp only
      split
      · exact .ok (h'.put _)
      · exact ih _ (h'.put _)

section
variable {s t : State} (h : AlikeButCond s t)
include h

theorem serviceGetc_alikeButCond : ServicesAlike (serviceGetc s) (serviceGetc t) := by
  unfold serviceGetc
  exact match readChar s, readChar t, readChar_alikeButCond h with
  | _, _, .ok c h' => .ok (h'.setReg 0 (zext8 c))
  | _, _, .error f => .error f

theorem serviceOut_alikeButCond : ServicesAlike (serviceOut s) (serviceOut t) := by
  unfold serviceOut
  rw [h.reg]
  exact .ok (h.put _)

theorem servicePuts_alikeButCond : ServicesAlike (servicePuts s) (servicePuts t) := by
  unfold servicePuts scanBound
  rw [h.reg, h.input]
  exact scanString_alikeButCond _ _ _ h

theorem serviceIn_alikeButCond : ServicesAlike (serviceIn s) (serviceIn t) := by
  unfold serviceIn
  rw [h.cfg]
  exact match readChar (s.put s.cfg.inPrompt), readChar (t.put s.cfg.inPrompt),
      readChar_alikeButCond (h.put s.cfg.inPrompt) with
  | _, _, .ok c h' => .ok ((h'.put [c]).setReg 0 (zext8 c))
  | _, _, .error f => .error f

theorem servicePutsp_alikeButCond : ServicesAlike (servicePutsp s) (servicePutsp t) := by
  unfold servicePutsp scanBound
  rw [h.reg, h.input]
  exact scanString_alikeButCond _ _ _ h

theorem serviceHalt_alikeButCond : ServicesAlike (serviceHalt s) (serviceHalt t) := by
  unfold serviceHalt
  rw [h.cfg]
  exact .ok (h.put _)

theorem trapDispatch_alikeButCond (vec : Byte) : AnswersAlike (trapDispatch vec s) (trapDispatch vec t) := by
  unfold trapDispatch
  split
  · exact answering_alikeButCond _ (serviceGetc_alikeButCond h)
  · exact answering_alikeButCond _ (serviceOut_alikeButCond h)
  · exact answering_alikeButCond _ (servicePuts_alikeButCond h)
  · exact answering_alikeButCond _ (serviceIn_alikeButCond h)
  · exact answering_alikeButCond _ (servicePutsp_alikeButCond h)
  · exact answering_alikeButCond _ (serviceHalt_alikeButCond h)
  · exact .ok _ h

/-! ## Instructions -/

theorem execTrap_alikeButCond (vec : Byte) : ResultsAlikeButCond (execTrap vec s) (execTrap vec t) := by
  unfold execTrap
  exact match trapDispatch vec s, trapDispatch vec t, trapDispatch_alikeButCond h vec with
  | _, _, .error f => .fault f
  | _, _, .ok .goOn h' => .next h'
  | _, _, .ok .halt h' => .next h'.haltCleanly
  | _, _, .ok .unknownVector h' => .next (h'.raiseFatal _)

theorem loadInto_alikeButCond (dr : RegIdx) (ea : Word) : ResultsAlikeButCond (loadInto dr ea s) (loadInto dr ea t) :=
  onRead_alikeButCond (memRead_alikeButCond h ea) fun v _ _ h' => .next (h'.writeDest dr v)

theorem execLd_alikeButCond (dr : RegIdx) (off : Word) : ResultsAlikeButCond (execLd dr off s) (execLd dr off t) := by
  unfold execLd pcRelative
  rw [h.pc]
  exact loadInto_alikeButCond h dr _

theorem execLdr_alikeButCond (dr base : RegIdx) (off : Word) :
    ResultsAlikeButCond (execLdr dr base off s) (execLdr dr base off t) := by
  unfold execLdr baseOffset
  rw [h.reg]
  exact loadInto_alikeButCond h dr _

theorem execLdi_alikeButCond (dr : RegIdx) (off : Word) : ResultsAlikeButCond (execLdi dr off s) (execLdi dr off t) := by
  unfold execLdi pcRelative
  rw [h.pc]
  exact onRead_alikeButCond (memRead_alikeButCond h _) fun ptr _ _ h' => loadInto_alikeButCond h' dr ptr

theorem execSti_alikeButCond (sr : RegIdx) (off : Word) : ResultsAlikeButCond (execSti sr off s) (execSti sr off t) := by
  unfold execSti pcRelative
  rw [h.pc, h.reg]
  exact onRead_alikeButCond (memRead_alikeButCond h _) fun ptr _ _ h' => .next (h'.memWrite ptr _)

theorem execBr_alikeButCond (hc : t.cc = s.cc) (n z p : Bool) (off : Word) :
    ResultsAlikeButCond (execBr n z p off s) (execBr n z p off t) := by
  rw [execBr_eq, execBr_eq]
  unfold pcRelative
  rw [hc, h.pc]
  exact .next (h.setPc _)

theorem execJsrr_alikeButCond (base : RegIdx) : ResultsAlikeButCond (execJsrr base s) (execJsrr base t) := by
  have hl := h.setReg 7 s.pc
  rw [execJsrr_eq, execJsrr_eq, h.cfg, h.pc, h.reg, hl.reg]
  exact .next (hl.setPc _)

/-- No instruction but a branch looks at the condition, and none at the words behind the keyboard. -/
theorem exec_alikeButCond (i : Instr) (hi : t.cc = s.cc ∨ ∀ n z p off, i ≠ .br n z p off) :
    ResultsAlikeButCond (exec i s) (exec i t) := by
  obtain ⟨m, c, hv⟩ := h
  have h := AlikeButCond.mk m c hv
  cases i with
  | br n z p off => exact execBr_alikeButCond h (hi.resolve_right fun hn => hn n z p off rfl) n z p off
  | addReg dr sr1 sr2 => exact .next (h.writeDest dr _)
  | addImm dr sr1 imm => exact .next (h.writeDest dr _)
  | andReg dr sr1 sr2 => exact .next (h.writeDest dr _)
  | andImm dr sr1 imm => exact .next (h.writeDest dr _)
  | notReg dr sr => exact .next (h.writeDest dr _)
  | lea dr off => exact .next (h.writeDest dr _)
  | ld dr off => exact execLd_alikeButCond h dr off
  | ldr dr base off => exact execLdr_alikeButCond h dr base off
  | ldi dr off => exact execLdi_alikeButCond h dr off
  | st sr off => exact .next (h.memWrite _ _)
  | str sr base off => exact .next (h.memWrite _ _)
  | sti sr off => exact execSti_alikeButCond h sr off
  | jmp base => exact .next (h.setPc _)
  | jsr off => exact .next ((h.setReg 7 _).setPc _)
  | jsrr base => exact execJsrr_alikeButCond h base
  | rti raw => exact .next (h.raiseFatal _)
  | reserved raw => exact .next (h.raiseFatal _)
  | trap vec => exact execTrap_alikeButCond h vec

end

/-! ## The condition afterwards, and the two statements -/

/-- The conditions agree afterwards if the instruction writes the condition, or if they agreed before (R18). -/
theorem cc_eq_of_exec {i : Instr} {s t s' t' : State} (hs : exec i s = .next s') (ht : exec i t = .next t')
    (h : AlikeButCond s' t') (hc : flagDestOf i ≠ none ∨ s.cc = t.cc) : s'.cc = t'.cc := by
  obtain ⟨hsome, hnone⟩ := conditionWrittenByTheSevenOnly i s s' hs
  obtain ⟨hsome', hnone'⟩ := conditionWrittenByTheSevenOnly i t t' ht
  cases hd : flagDestOf i with
  | some dr => rw [hsome dr hd, hsome' dr hd, h.reg]
  | none => rw [hnone hd, hnone' hd, hc.resolve_left (not_not_intro hd)]

/-- Alike states, the condition included, execute alike. -/
theorem exec_alikeResults (i : Instr) {s t : State} (h : Alike s t) : AlikeResults (exec i s) (exec i t) := by
  have hr := exec_alikeButCond h.alikeButCond i (.inl h.cc)
  generalize hs : exec i s = r at hr ⊢
  generalize ht : exec i t = r' at hr ⊢
  cases hr with
  | next h' => exact .next (h'.alike (cc_eq_of_exec hs ht h' (.inr h.cc.symm)))
  | fault f => exact .fault f

/-- The fetch leaves the condition. -/
theorem fetch_cc {s s' : State} {w : Word} (h : fetch s = .ok (w, s')) : s'.cc = s.cc := by
  obtain ⟨ch, -, -, rfl⟩ := fetch_ok h
  rfl

/-- Settles O44: a halted machine stands still, and the fetch and the execution of a running one answer alike. -/
theorem wordsBehindTheKeyboardAreUnobservable : Obligations.WordsBehindTheKeyboardAreUnobservable := by
  intro s t h
  cases hr : s.run with
  | halted =>
    rw [step_of_halted hr, step_of_halted (h.run.trans hr)]
    exact .next h
  | running =>
    have hr' := h.run.trans hr
    have hf := fetch_alikeButCond h.alikeButCond
    generalize hs : fetch s = r at hf
    generalize ht : fetch t = r' at hf
    cases hf with
    | ok w h' =>
      rw [step_of_fetch hr hs, step_of_fetch hr' ht]
      exact exec_alikeResults _ (h'.alike (by rw [fetch_cc hs, fetch_cc ht, h.cc]))
    | error f =>
      rw [step_of_fetch_error hr hs, step_of_fetch_error hr' ht]
      exact .fault f

/-- Settles O10: the results are alike but for the condition, which is the same where the instruction writes it, and what it was
before where not. -/
theorem onlyBrReadsTheCondition : Obligations.OnlyBrReadsTheCondition := by
  intro i s c hi
  have hr := exec_alikeButCond (alikeButCond_cc s c) i (.inr hi)
  generalize hs : exec i s = r at hr ⊢
  generalize ht : exec i { s with cc := c } = r' at hr ⊢
  cases hr with
  | fault f => exact .fault f
  | next h' =>
    refine .next ?_
    split
    · rename_i hd
      exact h'.alike (cc_eq_of_exec hs ht h' (.inl (Option.isSome_iff_ne_none.1 hd)))
    · rename_i hd
      obtain ⟨-, hnone⟩ := conditionWrittenByTheSevenOnly i _ _ ht
      exact (h'.withCond c).alike (hnone (Option.not_isSome_iff_eq_none.1 hd)).symm

end Sys2Proof.Machine
end

section
/-! PROOF. What a stop leaves on the channels, and the channels over a whole step (10_state.md R24; 20_memory.md R48;
40_execute_cycle.md R78). -/

namespace Sys2Proof.Machine

/-- What is left after moving the input on is left of the state before. -/
theorem LeftBy.of_input {s : State} {ch : InputChannel} {left : Channels} (hm : MovedOn s.input ch)
    (h : LeftBy { s with input := ch } left) : LeftBy s left :=
  ⟨hm.trans h.input, h.output⟩

/-- What is left after putting bytes is left of the state before. -/
theorem LeftBy.of_put {s : State} {bs : List Byte} {left : Channels} (h : LeftBy (s.put bs) left) : LeftBy s left :=
  LeftBy.of_moved (MovedOn.refl _) h

theorem leftBy_of_memRead {s : State} {addr : Word} {f : Fault} (h : memRead addr s = .error f) : LeftBy s f.left :=
  memRead_left h ▸ leftBy_waiting s

theorem leftBy_of_readChar {s : State} {f : Fault} (h : readChar s = .error f) : LeftBy s f.left := by
  obtain ⟨-, -, rfl⟩ := readChar_error h
  exact leftBy_waiting s

/-- The fetch stops as its read does. -/
theorem fetch_error {s : State} {f : Fault} (h : fetch s = .error f) : memRead s.pc s = .error f := by
  unfold fetch at h
  split at h
  · cases h
  · rename_i hr
    cases h
    exact hr

/-! ## Instructions that stop -/

theorem leftBy_of_loadInto {dr : RegIdx} {ea : Word} {s : State} {f : Fault} (h : loadInto dr ea s = .fault f) :
    LeftBy s f.left := by
  obtain he | ⟨v, s', -, hn⟩ := onRead_fault h
  · exact leftBy_of_memRead he
  · cases hn

theorem leftBy_of_execLdi {dr : RegIdx} {off : Word} {s : State} {f : Fault} (h : execLdi dr off s = .fault f) :
    LeftBy s f.left := by
  obtain he | ⟨ptr, s', hr, hl⟩ := onRead_fault h
  · exact leftBy_of_memRead he
  · obtain ⟨ch, rfl, hm⟩ := memRead_ok hr
    exact .of_input hm (leftBy_of_loadInto hl)

theorem leftBy_of_execSti {sr : RegIdx} {off : Word} {s : State} {f : Fault} (h : execSti sr off s = .fault f) :
    LeftBy s f.left := by
  obtain he | ⟨ptr, s', -, hn⟩ := onRead_fault h
  · exact leftBy_of_memRead he
  · cases hn

theorem answering_error {outcome : TrapOutcome} {r : Except Fault State} {f : Fault}
    (h : answering outcome r = .error f) : r = .error f := by
  unfold answering at h
  split at h
  · cases h
  · cases h
    rfl

theorem serviceGetc_error {s : State} {f : Fault} (h : serviceGetc s = .error f) : readChar s = .error f := by
  unfold serviceGetc at h
  split at h
  · cases h
  · rename_i hr
    cases h
    exact hr

theorem serviceIn_error {s : State} {f : Fault} (h : serviceIn s = .error f) :
    readChar (s.put s.cfg.inPrompt) = .error f := by
  unfold serviceIn at h
  split at h
  · cases h
  · rename_i hr
    cases h
    exact hr

/-- A service that stops is GETC, PUTS, IN or PUTSP. -/
theorem leftBy_of_trapDispatch {vec : Byte} {s : State} {f : Fault} (h : trapDispatch vec s = .error f) :
    LeftBy s f.left := by
  unfold trapDispatch at h
  split at h
  · exact leftBy_of_readChar (serviceGetc_error (answering_error h))
  · cases h
  · exact scanString_error (answering_error h)
  · exact .of_put (leftBy_of_readChar (serviceIn_error (answering_error h)))
  · exact scanString_error (answering_error h)
  · cases h
  · cases h

theorem leftBy_of_execTrap {vec : Byte} {s : State} {f : Fault} (h : execTrap vec s = .fault f) : LeftBy s f.left := by
  unfold execTrap at h
  split at h
  · rename_i hd
    cases h
    exact leftBy_of_trapDispatch hd
  all_goals cases h

theorem execJsrr_ne_fault (base : RegIdx) (s : State) (f : Fault) : execJsrr base s ≠ .fault f := by
  rw [execJsrr_eq]
  exact fun h => nomatch h

/-- An instruction that stops is a load, STI or TRAP, and leaves the channels moved forward (R78). -/
theorem leftBy_of_exec_fault {i : Instr} {s : State} {f : Fault} (h : exec i s = .fault f) : LeftBy s f.left := by
  cases i with
  | ld dr off => exact leftBy_of_loadInto h
  | ldr dr base off => exact leftBy_of_loadInto h
  | ldi dr off => exact leftBy_of_execLdi h
  | sti sr off => exact leftBy_of_execSti h
  | trap vec => exact leftBy_of_execTrap h
  | jsrr base => exact absurd h (execJsrr_ne_fault base s f)
  | _ => cases h

/-! ## The step -/

/-- A step that stops does so in its fetch, or in the execution of the word fetched. -/
theorem step_fault {s : State} {f : Fault} (h : step s = .fault f) :
    fetch s = .error f ∨ ∃ w s', fetch s = .ok (w, s') ∧ exec (decodeWord w) s' = .fault f := by
  unfold step at h
  split at h
  · cases h
  · split at h
    · rename_i w s' hf
      exact .inr ⟨w, s', hf, h⟩
    · rename_i hf
      cases h
      exact .inl hf

/-- What the execute phase leaves of the channels is left of the state before the fetch. -/
theorem LeftBy.of_fetch {s s' : State} {w : Word} {left : Channels} (hf : fetch s = .ok (w, s')) (h : LeftBy s' left) :
    LeftBy s left := by
  obtain ⟨ch, -, hm, rfl⟩ := fetch_ok hf
  exact ⟨hm.trans h.input, h.output⟩

theorem leftBy_of_step_next {s t : State} (h : step s = .next t) : LeftBy s t.channels := by
  obtain ⟨-, rfl⟩ | ⟨-, w, s', hf, he⟩ := step_next h
  · exact leftBy_channels t
  · exact .of_fetch hf (exec_effect he).leftBy

theorem leftBy_of_step_fault {s : State} {f : Fault} (h : step s = .fault f) : LeftBy s f.left := by
  obtain hf | ⟨w, s', hf, he⟩ := step_fault h
  · exact leftBy_of_memRead (fetch_error hf)
  · exact .of_fetch hf (leftBy_of_exec_fault he)

/-- Settles O45. -/
theorem channelsOnlyMoveForward : Obligations.ChannelsOnlyMoveForward := by
  refine ⟨fun s t h => ?_, fun s f h => ?_⟩
  · obtain ⟨⟨hscript, hending⟩, hout⟩ := leftBy_of_step_next h
    exact ⟨hout, hscript, hending⟩
  · obtain ⟨⟨hscript, hending⟩, hout⟩ := leftBy_of_step_fault h
    exact ⟨hout, hscript, hending⟩

end Sys2Proof.Machine
end

section
/-! PROOF. Memory as its reads: the canonical form (10_state.md R19), and the copy of an image (20_memory.md R45,
10_state.md R26). -/

namespace Sys2Proof.Machine

/-! ## The canonical form -/

/-- In canonical form a cell is listed exactly when it reads as its byte, and that byte is not 0x00. -/
theorem Memory.mem_iff_readByte {m : Memory} (h : m.wf) (k : Nat) (b : Byte) :
    (k, b) ∈ m ↔ b ≠ 0#8 ∧ m.readByte k = b := by
  induction m with
  | nil => exact iff_of_false List.not_mem_nil fun e => e.1 e.2.symm
  | cons c rest ih =>
    obtain ⟨j, d⟩ := c
    obtain ⟨hp, hc⟩ := h
    obtain ⟨hlt, hrest⟩ := List.pairwise_cons.1 hp
    have ih := ih ⟨hrest, fun x hx => hc x (List.mem_cons_of_mem _ hx)⟩
    by_cases hk : j = k
    · have hne : d ≠ 0#8 := (hc _ List.mem_cons_self).1
      have hnot : (k, b) ∉ rest := fun hm => (hlt _ hm).ne hk
      subst hk
      simp only [List.mem_cons, hnot, or_false, Memory.readByte, if_true, Prod.mk.injEq, true_and]
      exact ⟨fun e => ⟨e ▸ hne, e.symm⟩, fun e => e.2.symm⟩
    · have hhead : (k, b) ≠ (j, d) := fun e => hk (congrArg Prod.fst e).symm
      simp only [List.mem_cons, hhead, false_or, Memory.readByte, if_neg hk, ih]

/-- Settles O53: both memories list the same cells, in the same strictly rising order. -/
theorem canonicalMemoryIsItsReads : Obligations.CanonicalMemoryIsItsReads := by
  intro m m' hm hm' h
  have hmem : ∀ c, c ∈ m ↔ c ∈ m' := fun c => by
    rw [Memory.mem_iff_readByte hm, Memory.mem_iff_readByte hm', h]
  have hnodup : ∀ {l : Memory}, l.wf → l.Nodup := fun hl => hl.1.imp fun hlt e => hlt.ne (congrArg Prod.fst e)
  exact ((List.perm_ext_iff_of_nodup (hnodup hm) (hnodup hm')).2 hmem).eq_of_pairwise
    (fun _ _ _ _ hab hba => absurd hba hab.asymm) hm.1 hm'.1

/-! ## The copy of an image -/

/-- A copy that fits leaves every word outside the image (R45). -/
theorem Memory.readWord_copyIn_outside (m : Memory) (addr : Word) (ws : List Word) (a : Word)
    (hfit : addr.toNat + ws.length ≤ 65536) (ha : a.toNat < addr.toNat ∨ addr.toNat + ws.length ≤ a.toNat) :
    (m.copyIn addr ws).readWord a = m.readWord a := by
  induction ws generalizing m addr with
  | nil => rfl
  | cons w ws ih =>
    have hnext : (addr + 1#16).toNat = (addr.toNat + 1) % 65536 := BitVec.toNat_add addr 1#16
    have hlt := addr.isLt
    have hlt' := a.isLt
    rw [List.length_cons] at hfit ha
    have hne : a ≠ addr := by rintro rfl; omega
    rw [Memory.copyIn, ih _ _ (by omega) (by omega), Memory.readWord_writeWord_of_ne _ _ hne]

/-- A copy that fits puts the words in order from its address up (R45). -/
theorem Memory.readWord_copyIn_inside (m : Memory) (addr : Word) (ws : List Word)
    (hfit : addr.toNat + ws.length ≤ 65536) (k : Nat) (hk : k < ws.length) :
    (m.copyIn addr ws).readWord (BitVec.ofNat 16 (addr.toNat + k)) = ws[k] := by
  induction ws generalizing m addr k with
  | nil => cases hk
  | cons w ws ih =>
    have hnext : (addr + 1#16).toNat = (addr.toNat + 1) % 65536 := BitVec.toNat_add addr 1#16
    have hlt := addr.isLt
    rw [List.length_cons] at hfit hk
    rw [Memory.copyIn]
    cases k with
    | zero =>
      rw [Nat.add_zero, BitVec.ofNat_toNat, BitVec.setWidth_eq,
        Memory.readWord_copyIn_outside _ _ _ _ (by omega) (by omega), Memory.readWord_writeWord_self]
      rfl
    | succ k =>
      have haddr : addr.toNat + (k + 1) = (addr + 1#16).toNat + k := by omega
      rw [haddr, ih _ _ (by omega) k (by omega)]
      rfl

/-! ## The booted state -/

/-- An image that fits is loaded (R45, R160). -/
theorem bootImage_of_fits {origin : Word} {words : List Word} (h : origin.toNat + words.length ≤ 65536) :
    bootImage origin words =
      .next (({ State.reset with mem := State.reset.mem.copyIn origin words } : State).setPc origin) := by
  unfold bootImage load
  rw [if_neg (by omega)]

@[simp] theorem reset_reg (r : RegIdx) : State.reset.reg r = 0#16 := by
  simp [State.reg, State.reset]

/-- Settles O57. -/
theorem bootedStateIsTheResetTable : Obligations.BootedStateIsTheResetTable := by
  intro origin words hfit
  refine ⟨_, bootImage_of_fits hfit, reset_reg, rfl, rfl, rfl, rfl, rfl, rfl, rfl, fun k hk _ => ?_, fun a ha _ => ?_⟩
  · exact Memory.readWord_copyIn_inside _ _ _ hfit k hk
  · exact (Memory.readWord_copyIn_outside _ _ _ a hfit ha).trans (reset_readWord a)

end Sys2Proof.Machine
end

section
/-! PROOF. Memory through the bus (20_memory.md R31, R32, R39, R44) and the keyboard's two reads (R33, R34). -/

namespace Sys2Proof.Machine

theorem Alike.refl (s : State) : Alike s s := ⟨fun _ _ => rfl, rfl⟩

/-! ## Writes and what is read after them -/

/-- Settles O50, from the laws of memory and of reads through the bus. -/
theorem busReadsWhatWasLastWritten : Obligations.BusReadsWhatWasLastWritten := by
  refine ⟨memRead_kbsr, fun s hwf => memRead_kbdr hwf, fun s a ha => ?_, fun a _ => reset_readWord a, fun s a v => ?_,
    fun s a b v hne _ => ?_⟩
  · exact ⟨s, memRead_plain ha, Alike.refl s⟩
  · exact ⟨fun _ => Memory.readWord_writeWord_self s.mem a v, rfl⟩
  · exact Memory.readWord_writeWord_of_ne s.mem v hne

/-- No effect but a store's touches memory (R39). -/
theorem Effect.mem {i : Instr} {s t : State} (h : Effect i s t) (hi : isStore i = false) : t.mem = s.mem := by
  cases h with
  | writesDest _ _ => rfl
  | stores hs _ => exact absurd hs (by simp [hi])
  | jumps _ => rfl
  | links _ _ => rfl
  | serves _ hs => exact hs.mem
  | haltsCleanly _ hs => exact hs.mem
  | raises _ => rfl

/-- Settles O48, from the effect over all constructors. -/
theorem onlyStoresChangeMemory : Obligations.OnlyStoresChangeMemory :=
  fun _ _ _ h hi k _ => congrArg (Memory.readByte · k) ((exec_effect h).mem hi)

/-- A word written at the pc is the next word fetched (R44). -/
theorem fetch_memWrite_pc {s : State} {a : Word} (v : Word) (ha : ¬ s.cfg.isDevice a) (hpc : s.pc = a) :
    ∃ u, fetch (memWrite a v s) = .ok (v, u) := by
  subst hpc
  have hf := fetch_plain (s := memWrite s.pc v s) ha
  rw [memWrite_pc, memWrite_mem, Memory.readWord_writeWord_self] at hf
  exact ⟨_, hf⟩

/-- Settles O54. -/
theorem storeIsSeenByTheNextFetch : Obligations.StoreIsSeenByTheNextFetch := by
  refine ⟨fun sr off s t h ha hpc => ?_, fun sr base off s t h ha hpc => ?_, fun sr off ptr s s' t hr h ha hpc => ?_⟩
  · cases h
    exact fetch_memWrite_pc _ ha hpc
  · cases h
    exact fetch_memWrite_pc _ ha hpc
  · obtain ⟨ptr', ch, hr', rfl, -⟩ := execSti_frame h
    cases hr.symm.trans hr'
    exact fetch_memWrite_pc (s := { s with input := ch }) _ ha hpc

/-! ## The keyboard -/

theorem avail_iff (ch : InputChannel) : ch.avail = true ↔ ∃ c rest, ch.script = .char c :: rest := by
  unfold InputChannel.avail
  split <;> simp [*]

/-- A poll passes at most a pause, which a waiting read would pass too (R33). -/
theorem nextChar_afterPoll (ch : InputChannel) : nextChar ch.afterPoll.script = nextChar ch.script := by
  unfold InputChannel.afterPoll
  split
  · rename_i hs
    rw [hs, nextChar]
  · rfl

theorem kbdrRead_of_char {s : State} {c : Byte} {rest : List InputEvent} (h : nextChar s.input.script = some (c, rest)) :
    kbdrRead s = .ok (zext8 c, { s with input := { s.input with script := rest } }) := by
  simp only [kbdrRead, h]

theorem kbdrRead_of_exhausted {s : State} (hn : nextChar s.input.script = none) (he : s.input.ending = .exhausted) :
    kbdrRead s = .error (.kbdrExhausted s.waiting) := by
  simp only [kbdrRead, hn, he]

theorem kbdrRead_of_openEnded {s : State} (hn : nextChar s.input.script = none) (he : s.input.ending = .openEnded) :
    kbdrRead s = .error (.waitsForInput s.waiting) := by
  simp only [kbdrRead, hn, he]

theorem waiting_eq {s : State} {e : InputEnd} (he : s.input.ending = e) : s.waiting = ⟨⟨[], e⟩, s.output⟩ := by
  rw [← he]
  rfl

/-- Settles O51. -/
theorem keyboardReads : Obligations.KeyboardReads := by
  refine ⟨fun s => ⟨rfl, avail_iff s.input, nextChar_afterPoll s.input, Alike.refl _⟩, fun s c rest hc => ?_,
    fun s hn he => ?_, fun s hn he => ?_⟩
  · exact ⟨_, kbdrRead_of_char hc, Alike.refl _⟩
  · rw [kbdrRead_of_exhausted hn he, waiting_eq he]
  · rw [kbdrRead_of_openEnded hn he, waiting_eq he]

end Sys2Proof.Machine
end

section
/-! PROOF. The loader: the copy of an image (20_memory.md R45) and the bytes of its file (70_reset_and_hazards.md R161). -/

namespace Sys2Proof.Machine

/-! ## Load -/

theorem load_of_overflow {origin : Word} {words : List Word} (h : origin.toNat + words.length > 65536) (s : State) :
    load origin words s = .refused .imageLoadError := if_pos h

theorem load_of_fits {origin : Word} {words : List Word} (h : origin.toNat + words.length ≤ 65536) (s : State) :
    load origin words s = .next { s with mem := s.mem.copyIn origin words } := if_neg h.not_gt

/-- Settles O56. -/
theorem loadCopiesTheImage : Obligations.LoadCopiesTheImage := by
  intro origin words s
  refine ⟨fun h => load_of_overflow h s, fun h => ⟨_, load_of_fits h s, fun k hk _ => ?_, fun a ha _ => ?_, ?_, rfl⟩⟩
  · exact Memory.readWord_copyIn_inside s.mem origin words h k hk
  · exact Memory.readWord_copyIn_outside s.mem origin words a h ha
  · rintro rfl
    exact Alike.refl s

/-! ## The image file -/

theorem wordsOfBytes_flatMap_wordBytes (words : List Word) : wordsOfBytes (words.flatMap wordBytes) = some words := by
  induction words with
  | nil => rfl
  | cons w ws ih =>
    rw [List.flatMap_cons, wordBytes, List.cons_append, List.cons_append, List.nil_append, wordsOfBytes, ih,
      wordOf_highByte_lowByte]
    rfl

theorem length_of_wordsOfBytes {file : List Byte} {words : List Word} (h : wordsOfBytes file = some words) :
    file.length = 2 * words.length := by
  induction file using wordsOfBytes.induct generalizing words with
  | case1 => cases h; rfl
  | case2 => cases h
  | case3 hi lo rest ih =>
    rw [wordsOfBytes, Option.map_eq_some_iff] at h
    obtain ⟨ws, hws, rfl⟩ := h
    have := ih hws
    simp only [List.length_cons]
    omega

/-- A file that is an image holds its origin word and whole words after it. -/
theorem length_of_parseImage {file : List Byte} {origin : Word} {words : List Word}
    (h : parseImage file = some (origin, words)) : file.length = 2 * words.length + 2 := by
  unfold parseImage at h
  split at h
  · rename_i hw
    cases h
    exact length_of_wordsOfBytes hw
  · cases h
  · cases h

theorem bootFile_of_no_image {file : List Byte} (h : parseImage file = none) :
    bootFile file = .refused .imageLoadError := by
  simp only [bootFile, h]

/-- Settles O58. -/
theorem imageFileIsBigEndianWords : Obligations.ImageFileIsBigEndianWords := by
  refine ⟨fun origin words => ?_, fun file hbad => ?_⟩
  · change parseImage ((origin :: words).flatMap wordBytes) = _
    rw [parseImage, wordsOfBytes_flatMap_wordBytes]
  · have hnone : parseImage file = none := Option.eq_none_iff_forall_ne_some.2 fun ⟨origin, words⟩ h => by
      have := length_of_parseImage h
      omega
    exact ⟨hnone, bootFile_of_no_image hnone⟩

end Sys2Proof.Machine
end

section
/-! PROOF. Where an instruction can stop, and by what name: a read or a character that never comes, or a string without end
(20_memory.md R34; 40_execute_cycle.md R78; 42_data_movement.md R103; 60_exceptions.md R141, R143, R146). -/

namespace Sys2Proof.Machine

/-! ## The waits -/

/-- A wait on a channel with this end, by its name (R34, R78). -/
inductive WaitOn : InputEnd → Fault → Prop where
  | openEnded {e : InputEnd} {left : Channels} : e = .openEnded → WaitOn e (.waitsForInput left)
  | exhausted {e : InputEnd} {left : Channels} : e = .exhausted → WaitOn e (.kbdrExhausted left)

theorem waitOn_of_memRead {s : State} {addr : Word} {f : Fault} (h : memRead addr s = .error f) :
    WaitOn s.input.ending f := by
  obtain ⟨-, -, rfl⟩ := memRead_error h
  cases s.input.ending with
  | exhausted => exact .exhausted rfl
  | openEnded => exact .openEnded rfl

/-- A scan stops at one of its reads, or has no end (R141, R143). -/
theorem waitOn_of_scanString {word : Word → List Byte × Bool} {n : Nat} {p : Word} {s : State} {f : Fault}
    (h : scanString word n p s = .error f) : WaitOn s.input.ending f ∨ ∃ left, f = .endlessService left := by
  induction n generalizing p s with
  | zero => cases h; exact .inr ⟨_, rfl⟩
  | succ n ih =>
    unfold scanString at h
    split at h
    · rename_i hr
      cases h
      exact .inl (waitOn_of_memRead hr)
    · rename_i w s' hr
      obtain ⟨ch, rfl, hm⟩ := memRead_ok hr
      split at h
      · cases h
      · exact hm.ending ▸ ih h

/-! ## Stops of an instruction -/

/-- PUTS and PUTSP. -/
abbrev isStringService (i : Instr) : Prop := i = .trap 0x22 ∨ i = .trap 0x24

/-- The instructions that read a word through the bus as they execute (R36). -/
abbrev readsBus (i : Instr) : Prop :=
  (∃ dr off, i = .ld dr off) ∨ (∃ dr base off, i = .ldr dr base off) ∨ (∃ dr off, i = .ldi dr off)
    ∨ (∃ sr off, i = .sti sr off) ∨ isStringService i

/-- All the ways executing `i` in `s` can stop. -/
inductive StopsBy (i : Instr) (s : State) : Fault → Prop where
  | read {f : Fault} : readsBus i → WaitOn s.input.ending f → StopsBy i s f
  | character {left : Channels} : i = .trap 0x20 ∨ i = .trap 0x23 → s.input.ending = .openEnded →
      StopsBy i s (.waitsForInput left)
  | endless {left : Channels} : isStringService i → StopsBy i s (.endlessService left)

theorem stopsBy_of_scanString {i : Instr} (hi : isStringService i) {word : Word → List Byte × Bool} {n : Nat} {p : Word}
    {s : State} {f : Fault} (h : scanString word n p s = .error f) : StopsBy i s f := by
  obtain hw | ⟨left, rfl⟩ := waitOn_of_scanString h
  · exact .read (.inr (.inr (.inr (.inr hi)))) hw
  · exact .endless hi

theorem execTrap_fault {vec : Byte} {s : State} {f : Fault} (h : execTrap vec s = .fault f) :
    trapDispatch vec s = .error f := by
  unfold execTrap at h
  split at h
  · rename_i hd
    cases h
    exact hd
  all_goals cases h

theorem stopsBy_of_execTrap {vec : Byte} {s : State} {f : Fault} (h : execTrap vec s = .fault f) :
    StopsBy (.trap vec) s f := by
  have hd := execTrap_fault h
  unfold trapDispatch at hd
  split at hd
  · obtain ⟨-, he, rfl⟩ := readChar_error (serviceGetc_error (answering_error hd))
    exact .character (.inl rfl) he
  · cases hd
  · exact stopsBy_of_scanString (.inl rfl) (answering_error hd)
  · obtain ⟨-, he, rfl⟩ := readChar_error (serviceIn_error (answering_error hd))
    exact .character (.inr rfl) he
  · exact stopsBy_of_scanString (.inr rfl) (answering_error hd)
  · cases hd
  · cases hd

/-! ## When the four that read stop -/

theorem onRead_next_eq_fault_iff {r : Except Fault (Word × State)} {g : Word → State → State} {f : Fault} :
    (onRead r fun v s => .next (g v s)) = .fault f ↔ r = .error f := by
  refine ⟨fun h => ?_, fun h => h ▸ rfl⟩
  obtain he | ⟨v, s, -, hn⟩ := onRead_fault h
  · exact he
  · cases hn

theorem loadInto_eq_fault_iff {dr : RegIdx} {ea : Word} {s : State} {f : Fault} :
    loadInto dr ea s = .fault f ↔ memRead ea s = .error f := onRead_next_eq_fault_iff

theorem execSti_eq_fault_iff {sr : RegIdx} {off : Word} {s : State} {f : Fault} :
    execSti sr off s = .fault f ↔ memRead (s.pc + off) s = .error f := onRead_next_eq_fault_iff

theorem execLdi_eq_fault_iff {dr : RegIdx} {off : Word} {s : State} {f : Fault} :
    execLdi dr off s = .fault f ↔ memRead (s.pc + off) s = .error f
      ∨ ∃ ptr s', memRead (s.pc + off) s = .ok (ptr, s') ∧ memRead ptr s' = .error f := by
  unfold execLdi pcRelative
  refine ⟨fun h => ?_, ?_⟩
  · obtain he | ⟨ptr, s', hr, hl⟩ := onRead_fault h
    · exact .inl he
    · exact .inr ⟨ptr, s', hr, loadInto_eq_fault_iff.1 hl⟩
  · rintro (he | ⟨ptr, s', hr, he⟩)
    · rw [he, onRead]
    · rw [hr, onRead]
      exact loadInto_eq_fault_iff.2 he

/-- LDI's wait is named by the end the channel had before its first read. -/
theorem waitOn_of_execLdi {dr : RegIdx} {off : Word} {s : State} {f : Fault} (h : execLdi dr off s = .fault f) :
    WaitOn s.input.ending f := by
  obtain he | ⟨ptr, s', hr, he⟩ := execLdi_eq_fault_iff.1 h
  · exact waitOn_of_memRead he
  · obtain ⟨ch, rfl, hm⟩ := memRead_ok hr
    exact hm.ending ▸ waitOn_of_memRead he

/-- The stops over all constructors (R74). -/
theorem stopsBy_of_exec {i : Instr} {s : State} {f : Fault} (h : exec i s = .fault f) : StopsBy i s f := by
  cases i with
  | ld dr off => exact .read (.inl ⟨dr, off, rfl⟩) (waitOn_of_memRead (loadInto_eq_fault_iff.1 h))
  | ldr dr base off => exact .read (.inr (.inl ⟨dr, base, off, rfl⟩)) (waitOn_of_memRead (loadInto_eq_fault_iff.1 h))
  | ldi dr off => exact .read (.inr (.inr (.inl ⟨dr, off, rfl⟩))) (waitOn_of_execLdi h)
  | sti sr off => exact .read (.inr (.inr (.inr (.inl ⟨sr, off, rfl⟩)))) (waitOn_of_memRead (execSti_eq_fault_iff.1 h))
  | trap vec => exact stopsBy_of_execTrap h
  | jsrr base => exact absurd h (execJsrr_ne_fault base s f)
  | _ => cases h

/-! ## What the name of a stop says -/

theorem StopsBy.ending_of_waitsForInput {i : Instr} {s : State} {left : Channels}
    (h : StopsBy i s (.waitsForInput left)) : s.input.ending = .openEnded := by
  cases h with
  | read _ hw => cases hw with | openEnded he => exact he
  | character _ he => exact he

theorem StopsBy.of_kbdrExhausted {i : Instr} {s : State} {left : Channels} (h : StopsBy i s (.kbdrExhausted left)) :
    s.input.ending = .exhausted ∧ readsBus i := by
  cases h with
  | read hi hw => cases hw with | exhausted he => exact ⟨he, hi⟩

theorem StopsBy.isStringService_of_endlessService {i : Instr} {s : State} {left : Channels}
    (h : StopsBy i s (.endlessService left)) : isStringService i := by
  cases h with
  | read _ hw => cases hw
  | endless hi => exact hi

theorem not_readsBus_trap {vec : Byte} (h22 : vec ≠ 0x22) (h24 : vec ≠ 0x24) : ¬ readsBus (.trap vec) := by
  simpa using And.intro h22 h24

/-- Only the loads, STI and the recognised traps other than OUT and HALT stop. -/
theorem StopsBy.form {i : Instr} {s : State} {f : Fault} (h : StopsBy i s f) :
    (∃ dr off, i = .ld dr off) ∨ (∃ dr base off, i = .ldr dr base off) ∨ (∃ dr off, i = .ldi dr off)
      ∨ (∃ sr off, i = .sti sr off) ∨ ∃ vec, i = .trap vec ∧ vec ≠ 0x21 ∧ vec ≠ 0x25 ∧ knownVector vec := by
  have hstring : isStringService i → ∃ vec, i = .trap vec ∧ vec ≠ 0x21 ∧ vec ≠ 0x25 ∧ knownVector vec := by
    rintro (rfl | rfl) <;> exact ⟨_, rfl, by decide⟩
  cases h with
  | read hi _ => exact hi.imp_right (.imp_right (.imp_right (.imp_right hstring)))
  | character hi _ =>
    refine .inr (.inr (.inr (.inr ?_)))
    obtain rfl | rfl := hi <;> exact ⟨_, rfl, by decide⟩
  | endless hi => exact .inr (.inr (.inr (.inr (hstring hi))))

/-! ## Nothing is refused -/

theorem onRead_ne_refused {r : Except Fault (Word × State)} {go : Word → State → Result} {x : Refusal}
    (hgo : ∀ v s, go v s ≠ .refused x) : onRead r go ≠ .refused x := by
  unfold onRead
  split
  · exact hgo _ _
  · exact fun h => nomatch h

theorem loadInto_ne_refused (dr : RegIdx) (ea : Word) (s : State) (x : Refusal) : loadInto dr ea s ≠ .refused x :=
  onRead_ne_refused fun _ _ h => nomatch h

theorem execTrap_ne_refused (vec : Byte) (s : State) (x : Refusal) : execTrap vec s ≠ .refused x := by
  unfold execTrap
  split <;> exact fun h => nomatch h

theorem execJsrr_ne_refused (base : RegIdx) (s : State) (x : Refusal) : execJsrr base s ≠ .refused x := by
  rw [execJsrr_eq]
  exact fun h => nomatch h

/-- No arm of `exec` refuses (R74). -/
theorem exec_ne_refused (i : Instr) (s : State) (x : Refusal) : exec i s ≠ .refused x := by
  cases i with
  | ld dr off => exact loadInto_ne_refused dr _ s x
  | ldr dr base off => exact loadInto_ne_refused dr _ s x
  | ldi dr off => exact onRead_ne_refused fun ptr s' => loadInto_ne_refused dr ptr s' x
  | sti sr off => exact onRead_ne_refused fun _ _ h => nomatch h
  | trap vec => exact execTrap_ne_refused vec s x
  | jsrr base => exact execJsrr_ne_refused base s x
  | _ => exact fun h => nomatch h

/-- Settles O21, from all the ways an instruction can stop. -/
theorem stopsOnlyOnWaitOrEndlessString : Obligations.StopsOnlyOnWaitOrEndlessString := by
  refine ⟨fun i s f h => ?_, fun _ _ _ _ => loadInto_eq_fault_iff, fun _ _ _ _ _ => loadInto_eq_fault_iff,
    fun _ _ _ _ => execLdi_eq_fault_iff, fun _ _ _ _ => execSti_eq_fault_iff, exec_ne_refused⟩
  have hs := stopsBy_of_exec h
  refine ⟨?_, ?_, ?_, hs.form⟩
  · rintro left rfl
    exact hs.ending_of_waitsForInput
  · rintro left rfl
    obtain ⟨he, hi⟩ := hs.of_kbdrExhausted
    refine ⟨he, ?_, ?_⟩ <;> rintro rfl <;> exact not_readsBus_trap (by decide) (by decide) hi
  · rintro left rfl
    exact hs.isStringService_of_endlessService

end Sys2Proof.Machine
end

section
/-! PROOF. The decoder computes one relation between a word and the instruction of its format; what it delivers is read off that
relation, format by format (30_encoding.md R51 to R56). -/

namespace Sys2Proof

/-! ## The formats -/

/-- The instruction of a word's format: one constructor for each row of the opcode table, with the opcode, the form bit where
the opcode has two forms, and the fields at their places (R56). -/
inductive DecodesTo (w : Word) : Instr → Prop where
  | br : hasOpcode (opcodeNumber .br) w →
      DecodesTo w (.br (w.getLsbD 11) (w.getLsbD 10) (w.getLsbD 9) (fieldOff9 w))
  | addReg : hasOpcode (opcodeNumber .add) w → w.getLsbD 5 = false →
      DecodesTo w (.addReg (fieldDR w) (fieldBase w) (fieldSR2 w))
  | addImm : hasOpcode (opcodeNumber .add) w → w.getLsbD 5 = true →
      DecodesTo w (.addImm (fieldDR w) (fieldBase w) (fieldImm5 w))
  | ld : hasOpcode (opcodeNumber .ld) w → DecodesTo w (.ld (fieldDR w) (fieldOff9 w))
  | st : hasOpcode (opcodeNumber .st) w → DecodesTo w (.st (fieldDR w) (fieldOff9 w))
  | jsr : hasOpcode (opcodeNumber .jsr) w → w.getLsbD 11 = true → DecodesTo w (.jsr (fieldOff11 w))
  | jsrr : hasOpcode (opcodeNumber .jsr) w → w.getLsbD 11 = false → DecodesTo w (.jsrr (fieldBase w))
  | andReg : hasOpcode (opcodeNumber .and) w → w.getLsbD 5 = false →
      DecodesTo w (.andReg (fieldDR w) (fieldBase w) (fieldSR2 w))
  | andImm : hasOpcode (opcodeNumber .and) w → w.getLsbD 5 = true →
      DecodesTo w (.andImm (fieldDR w) (fieldBase w) (fieldImm5 w))
  | ldr : hasOpcode (opcodeNumber .ldr) w → DecodesTo w (.ldr (fieldDR w) (fieldBase w) (fieldOff6 w))
  | str : hasOpcode (opcodeNumber .str) w → DecodesTo w (.str (fieldDR w) (fieldBase w) (fieldOff6 w))
  | rti : hasOpcode (opcodeNumber .rti) w → DecodesTo w (.rti w)
  | notReg : hasOpcode (opcodeNumber .not) w → DecodesTo w (.notReg (fieldDR w) (fieldBase w))
  | ldi : hasOpcode (opcodeNumber .ldi) w → DecodesTo w (.ldi (fieldDR w) (fieldOff9 w))
  | sti : hasOpcode (opcodeNumber .sti) w → DecodesTo w (.sti (fieldDR w) (fieldOff9 w))
  | jmp : hasOpcode (opcodeNumber .jmp) w → DecodesTo w (.jmp (fieldBase w))
  | reserved : hasOpcode (opcodeNumber .reserved) w → DecodesTo w (.reserved w)
  | lea : hasOpcode (opcodeNumber .lea) w → DecodesTo w (.lea (fieldDR w) (fieldOff9 w))
  | trap : hasOpcode (opcodeNumber .trap) w → DecodesTo w (.trap (lowByte w))

theorem opcodeOf_of_hasOpcode {op : Opcode} {w : Word} (h : hasOpcode (opcodeNumber op) w) :
    opcodeOf (w.extractLsb' 12 4) = op := by
  rw [h, opcodeOf_opcodeNumber]

/-- The decoder answers the instruction of the word's format, whichever it is. -/
theorem DecodesTo.decodeWord_eq {w : Word} {i : Instr} (h : DecodesTo w i) : decodeWord w = i := by
  cases h with
  | addReg ho hb | addImm ho hb | jsr ho hb | jsrr ho hb | andReg ho hb | andImm ho hb =>
    simp only [decodeWord, opcodeOf_of_hasOpcode ho, hb, Bool.false_eq_true, if_true, if_false]
  | br ho | ld ho | st ho | ldr ho | str ho | rti ho | notReg ho | ldi ho | sti ho | jmp ho | reserved ho | lea ho | trap ho =>
    simp only [decodeWord, opcodeOf_of_hasOpcode ho]

/-- Every word has a format (R55). -/
theorem decodesTo_decodeWord (w : Word) : DecodesTo w (decodeWord w) := by
  obtain ⟨op, ho⟩ : ∃ op, hasOpcode (opcodeNumber op) w := ⟨_, (opcodeNumber_opcodeOf _).symm⟩
  suffices ∃ i, DecodesTo w i by
    obtain ⟨i, hi⟩ := this
    exact hi.decodeWord_eq.symm ▸ hi
  cases op with
  | br => exact ⟨_, .br ho⟩
  | add =>
    cases hb : w.getLsbD 5 with
    | false => exact ⟨_, .addReg ho hb⟩
    | true => exact ⟨_, .addImm ho hb⟩
  | ld => exact ⟨_, .ld ho⟩
  | st => exact ⟨_, .st ho⟩
  | jsr =>
    cases hb : w.getLsbD 11 with
    | false => exact ⟨_, .jsrr ho hb⟩
    | true => exact ⟨_, .jsr ho hb⟩
  | and =>
    cases hb : w.getLsbD 5 with
    | false => exact ⟨_, .andReg ho hb⟩
    | true => exact ⟨_, .andImm ho hb⟩
  | ldr => exact ⟨_, .ldr ho⟩
  | str => exact ⟨_, .str ho⟩
  | rti => exact ⟨_, .rti ho⟩
  | not => exact ⟨_, .notReg ho⟩
  | ldi => exact ⟨_, .ldi ho⟩
  | sti => exact ⟨_, .sti ho⟩
  | jmp => exact ⟨_, .jmp ho⟩
  | reserved => exact ⟨_, .reserved ho⟩
  | lea => exact ⟨_, .lea ho⟩
  | trap => exact ⟨_, .trap ho⟩

/-- Settles O2: each clause is one format. -/
theorem everyFormatDecodesFieldByField : Obligations.EveryFormatDecodesFieldByField := fun _ =>
  ⟨fun h => (DecodesTo.br h).decodeWord_eq, fun h hb => (DecodesTo.addReg h hb).decodeWord_eq,
    fun h hb => (DecodesTo.addImm h hb).decodeWord_eq, fun h => (DecodesTo.ld h).decodeWord_eq,
    fun h => (DecodesTo.st h).decodeWord_eq, fun h hb => (DecodesTo.jsr h hb).decodeWord_eq,
    fun h hb => (DecodesTo.jsrr h hb).decodeWord_eq, fun h hb => (DecodesTo.andReg h hb).decodeWord_eq,
    fun h hb => (DecodesTo.andImm h hb).decodeWord_eq, fun h => (DecodesTo.ldr h).decodeWord_eq,
    fun h => (DecodesTo.str h).decodeWord_eq, fun h => (DecodesTo.rti h).decodeWord_eq,
    fun h => (DecodesTo.notReg h).decodeWord_eq, fun h => (DecodesTo.ldi h).decodeWord_eq,
    fun h => (DecodesTo.sti h).decodeWord_eq, fun h => (DecodesTo.jmp h).decodeWord_eq,
    fun h => (DecodesTo.reserved h).decodeWord_eq, fun h => (DecodesTo.lea h).decodeWord_eq,
    fun h => (DecodesTo.trap h).decodeWord_eq⟩

/-- Settles O1, by evaluating the decoder on each word. -/
theorem specWordsDecode : Obligations.SpecWordsDecode := by
  unfold Obligations.SpecWordsDecode
  decide

/-! ## What the decoder delivers -/

theorem DecodesTo.wellFormed {w : Word} {i : Instr} (h : DecodesTo w i) : i.WellFormed := by
  cases h with
  | addReg | jsrr | andReg | notReg | jmp | trap => rfl
  | rti ho | reserved ho => exact decide_eq_true ho
  | br | addImm | ld | st | jsr | andImm | ldr | str | ldi | sti | lea =>
    exact decide_eq_true (isSext_sext (by decide) _)

/-- Settles O4, from the word's format and the opcode it is taken from. -/
theorem decodedInstructionKeepsOpcode : Obligations.DecodedInstructionKeepsOpcode := fun w =>
  ⟨(decodesTo_decodeWord w).wellFormed, by rw [Machine.opcode_decodeWord, opcodeNumber_opcodeOf]⟩

end Sys2Proof
end

section
/-! PROOF. Decoding undoes encoding: a field reads what was placed at it and nothing of what lies beside it (30_encoding.md R51,
R54). -/

namespace Sys2Proof

/-! ## Fields read back from where they were placed -/

@[simp] theorem extractLsb'_place_self {n lo : Nat} (h : lo + n ≤ 16) (f : BitVec n) : (place lo f).extractLsb' lo n = f := by
  apply BitVec.eq_of_getLsbD_eq
  intro i hi
  have h16 : lo + i < 16 := by omega
  simp only [BitVec.getLsbD_extractLsb', getLsbD_place, hi, h16, Nat.le_add_right, Nat.add_sub_cancel_left, decide_true,
    Bool.true_and]

/-- A field reads nothing of another that lies beside it. -/
@[simp] theorem extractLsb'_place_of_disjoint {n lo k lo' : Nat} (h : lo + n ≤ lo' ∨ lo' + k ≤ lo) (f : BitVec k) :
    (place lo' f).extractLsb' lo n = 0#n := by
  apply BitVec.eq_of_getLsbD_eq
  intro i hi
  rw [BitVec.getLsbD_extractLsb', getLsbD_place, BitVec.getLsbD_zero]
  obtain h | h := h
  · have hlo : ¬ lo' ≤ lo + i := by omega
    simp only [hlo, decide_false, Bool.false_and, Bool.and_false]
  · have hk : k ≤ lo + i - lo' := by omega
    simp only [BitVec.getLsbD_of_ge f _ hk, Bool.and_false]

/-- Nothing of the opcode is read below it. -/
@[simp] theorem extractLsb'_placeOpcode {n lo : Nat} (h : lo + n ≤ 12) (op : Opcode) :
    (placeOpcode op).extractLsb' lo n = 0#n :=
  extractLsb'_place_of_disjoint (.inl h) _

theorem getLsbD_placeOpcode {k : Nat} (h : k < 12) (op : Opcode) : (placeOpcode op).getLsbD k = false := by
  have hk : ¬ 12 ≤ k := by omega
  simp only [placeOpcode, getLsbD_place, hk, decide_false, Bool.false_and, Bool.and_false]

/-- A well-formed immediate is the sign extension of the bits of it that are encoded (R53). -/
theorem sext_setWidth {n : Nat} {v : Word} (h : isSext n v) : sext (v.setWidth n) = v := h

/-- The opcode over all constructors (R61 (a)). -/
theorem hasOpcode_encode {i : Instr} (h : i.WellFormed) : hasOpcode (opcodeNumber i.opcode) (encode i) := by
  cases i with
  | br n z p off => exact Laws.EncodeOpcode.br n z p off h
  | addReg dr sr1 sr2 => exact Laws.EncodeOpcode.addReg dr sr1 sr2 h
  | addImm dr sr1 imm => exact Laws.EncodeOpcode.addImm dr sr1 imm h
  | ld dr off => exact Laws.EncodeOpcode.ld dr off h
  | st sr off => exact Laws.EncodeOpcode.st sr off h
  | jsr off => exact Laws.EncodeOpcode.jsr off h
  | jsrr base => exact Laws.EncodeOpcode.jsrr base h
  | andReg dr sr1 sr2 => exact Laws.EncodeOpcode.andReg dr sr1 sr2 h
  | andImm dr sr1 imm => exact Laws.EncodeOpcode.andImm dr sr1 imm h
  | ldr dr base off => exact Laws.EncodeOpcode.ldr dr base off h
  | str sr base off => exact Laws.EncodeOpcode.str sr base off h
  | rti raw => exact Laws.EncodeOpcode.rti raw h
  | notReg dr sr => exact Laws.EncodeOpcode.notReg dr sr h
  | ldi dr off => exact Laws.EncodeOpcode.ldi dr off h
  | sti sr off => exact Laws.EncodeOpcode.sti sr off h
  | jmp base => exact Laws.EncodeOpcode.jmp base h
  | reserved raw => exact Laws.EncodeOpcode.reserved raw h
  | lea dr off => exact Laws.EncodeOpcode.lea dr off h
  | trap vec => exact Laws.EncodeOpcode.trap vec h

/-- Decoding gives back what was encoded: the opcode selects the arm, and each of its fields reads what was placed there. -/
theorem decodeWord_encode {i : Instr} (h : i.WellFormed) : decodeWord (encode i) = i := by
  unfold decodeWord
  rw [opcodeOf_of_hasOpcode (hasOpcode_encode h)]
  cases i with
  | rti | reserved => rfl
  | addReg | jsrr | andReg | notReg | jmp | trap =>
    simp [Instr.opcode, encode, fieldDR, fieldBase, fieldSR2, lowByte, BitVec.extractLsb'_or, getLsbD_place,
      getLsbD_placeOpcode, -BitVec.getLsbD_eq_getElem]
  | br _ _ _ v | addImm _ _ v | ld _ v | st _ v | jsr v | andImm _ _ v | ldr _ _ v | str _ _ v | ldi _ v | sti _ v | lea _ v =>
    have hv := sext_setWidth (v := v) (of_decide_eq_true h)
    simp [Instr.opcode, encode, fieldDR, fieldBase, fieldImm5, fieldOff6, fieldOff9, fieldOff11, BitVec.extractLsb'_or,
      getLsbD_place, getLsbD_placeOpcode, hv, -BitVec.getLsbD_eq_getElem]

/-- Settles O3: from its word by reading the fields back, from its bytes by joining them to that word. -/
theorem decodeOfEncodeIsTheInstruction : Obligations.DecodeOfEncodeIsTheInstruction := by
  intro i h
  refine ⟨decodeWord_encode h, fun rest => ?_⟩
  rw [encodeBytes, decode_wordBytes, decodeWord_encode h]

end Sys2Proof
end

section
/-! PROOF. The opcode table and the ignored bits: the rows test the opcode and the form bit, the formats use the bits of their
fields (30_encoding.md R57, R62). -/

namespace Sys2Proof

/-! ## Fields put back at their places -/

/-- A field of a word put back at its place is the word with every other bit cleared. -/
theorem place_extractLsb' {n : Nat} (lo : Nat) (w : Word) :
    place lo (w.extractLsb' lo n) = w &&& place lo (BitVec.allOnes n) := by
  apply BitVec.eq_of_getLsbD_eq
  intro i hi
  rw [BitVec.getLsbD_and, getLsbD_place, getLsbD_place, BitVec.getLsbD_extractLsb', BitVec.getLsbD_allOnes]
  by_cases hlo : lo ≤ i
  · simp [hi, hlo, Bool.and_comm]
  · simp [hlo]

theorem place_ofBool_getLsbD (k : Nat) (w : Word) : place k (BitVec.ofBool (w.getLsbD k)) = w &&& place k 1#1 := by
  have hbit : BitVec.ofBool (w.getLsbD k) = w.extractLsb' k 1 := by
    apply BitVec.eq_of_getLsbD_eq
    intro i hi
    obtain rfl : i = 0 := by omega
    simp [BitVec.getLsbD_ofBool, BitVec.getLsbD_extractLsb', -BitVec.getLsbD_eq_getElem]
  rw [hbit, place_extractLsb']
  rfl

theorem place_formBit {k : Nat} {b : Bool} {w : Word} (h : w.getLsbD k = b) :
    place k (BitVec.ofBool b) = w &&& place k 1#1 := by
  rw [← h, place_ofBool_getLsbD]

theorem placeOpcode_of_hasOpcode {op : Opcode} {w : Word} (h : hasOpcode (opcodeNumber op) w) :
    placeOpcode op = w &&& 0xF000 := by
  rw [placeOpcode, ← h]
  exact place_extractLsb' 12 w

/-- The bits that tell the two forms of an opcode apart. -/
theorem placeOpcode_or_formBit {op : Opcode} {k : Nat} {b : Bool} {w : Word} (ho : hasOpcode (opcodeNumber op) w)
    (hb : w.getLsbD k = b) : placeOpcode op ||| place k (BitVec.ofBool b) = w &&& (0xF000 ||| place k 1#1) := by
  rw [BitVec.and_or_distrib_left, placeOpcode_of_hasOpcode ho, place_formBit hb]

/-- In the form whose bit is 0 the opcode alone is both. -/
theorem placeOpcode_of_clear {op : Opcode} {k : Nat} {w : Word} (ho : hasOpcode (opcodeNumber op) w)
    (hb : w.getLsbD k = false) : placeOpcode op = w &&& (0xF000 ||| place k 1#1) := by
  have h0 : place k (BitVec.ofBool false) = 0#16 := by simp [place]
  rw [← placeOpcode_or_formBit ho hb, h0, BitVec.or_zero]

theorem place_fieldDR (w : Word) : place 9 (fieldDR w) = w &&& 0x0E00 := place_extractLsb' 9 w

theorem place_fieldBase (w : Word) : place 6 (fieldBase w) = w &&& 0x01C0 := place_extractLsb' 6 w

theorem place_fieldSR2 (w : Word) : place 0 (fieldSR2 w) = w &&& 0x0007 := place_extractLsb' 0 w

theorem place_lowByte (w : Word) : place 0 (lowByte w) = w &&& 0x00FF := place_extractLsb' 0 w

/-- The immediate of the low `n` bits as `encode` puts it back. -/
theorem place_setWidth_sext {n : Nat} (h : n ≤ 16) (w : Word) :
    place 0 ((sext (w.extractLsb' 0 n)).setWidth n) = w &&& place 0 (BitVec.allOnes n) := by
  rw [setWidth_sext h, place_extractLsb']

theorem place_fieldImm5 (w : Word) : place 0 ((fieldImm5 w).setWidth 5) = w &&& 0x001F :=
  place_setWidth_sext (by decide) w

theorem place_fieldOff6 (w : Word) : place 0 ((fieldOff6 w).setWidth 6) = w &&& 0x003F :=
  place_setWidth_sext (by decide) w

theorem place_fieldOff9 (w : Word) : place 0 ((fieldOff9 w).setWidth 9) = w &&& 0x01FF :=
  place_setWidth_sext (by decide) w

theorem place_fieldOff11 (w : Word) : place 0 ((fieldOff11 w).setWidth 11) = w &&& 0x07FF :=
  place_setWidth_sext (by decide) w

/-! ## The opcode table -/

/-- The bits a format's row tests are the word's opcode and, where the opcode has two forms, its form bit (R62). -/
theorem DecodesTo.selects {w : Word} {i : Instr} (h : DecodesTo w i) : (tableRow i).selects w := by
  cases h with
  | addReg ho hb | addImm ho hb | jsr ho hb | jsrr ho hb | andReg ho hb | andImm ho hb =>
    exact (placeOpcode_or_formBit ho hb).symm
  | br ho | ld ho | st ho | ldr ho | str ho | rti ho | notReg ho | ldi ho | sti ho | jmp ho | reserved ho | lea ho | trap ho =>
    exact (placeOpcode_of_hasOpcode ho).symm

theorem tableRow_mem (i : Instr) : tableRow i ∈ opcodeTable := by
  cases i <;> simp [tableRow, opcodeTable]

/-- Two rows of the table that agree on the bits both test are one row. -/
theorem row_eq_of_pattern_and_eq : ∀ r ∈ opcodeTable, ∀ r' ∈ opcodeTable,
    r.pattern &&& r'.mask = r'.pattern &&& r.mask → r = r' := by
  decide

theorem row_eq_of_selects {r r' : TableRow} (hr : r ∈ opcodeTable) (hr' : r' ∈ opcodeTable) {w : Word} (h : r.selects w)
    (h' : r'.selects w) : r = r' := by
  refine row_eq_of_pattern_and_eq r hr r' hr' ?_
  rw [← h, ← h', BitVec.and_assoc, BitVec.and_assoc, BitVec.and_comm r.mask]

/-- Settles O7: a word selects the row of its format, and no two rows share a word. -/
theorem opcodeTableRowsPartitionTheWords : Obligations.OpcodeTableRowsPartitionTheWords := fun w =>
  have hw := (decodesTo_decodeWord w).selects
  ⟨hw, tableRow_mem _, fun _ hr h => row_eq_of_selects hr (tableRow_mem _) h hw⟩

/-! ## Ignored bits -/

/-- Encoding what a word decodes to keeps the bits of its format: each placed field is the word under the field's mask, and the
masks make up `usedBits`. -/
theorem DecodesTo.encode_eq {w : Word} {i : Instr} (h : DecodesTo w i) : encode i = w &&& usedBits i := by
  cases h with
  | rti | reserved => exact BitVec.and_allOnes.symm
  | br ho =>
    simp only [encode, placeOpcode_of_hasOpcode ho, place_ofBool_getLsbD, place_fieldOff9, ← BitVec.and_or_distrib_left]
    rfl
  | addReg ho hb | andReg ho hb =>
    simp only [encode, placeOpcode_of_clear ho hb, place_fieldDR, place_fieldBase, place_fieldSR2,
      ← BitVec.and_or_distrib_left]
    rfl
  | addImm ho hb | andImm ho hb =>
    have hf : place 5 1#1 = w &&& 0x0020 := place_formBit hb
    simp only [encode, placeOpcode_of_hasOpcode ho, hf, place_fieldDR, place_fieldBase, place_fieldImm5,
      ← BitVec.and_or_distrib_left]
    rfl
  | jsr ho hb =>
    have hf : place 11 1#1 = w &&& 0x0800 := place_formBit hb
    simp only [encode, placeOpcode_of_hasOpcode ho, hf, place_fieldOff11, ← BitVec.and_or_distrib_left]
    rfl
  | jsrr ho hb =>
    simp only [encode, placeOpcode_of_clear ho hb, place_fieldBase, ← BitVec.and_or_distrib_left]
    rfl
  | ld ho | st ho | ldr ho | str ho | notReg ho | ldi ho | sti ho | jmp ho | lea ho | trap ho =>
    simp only [encode, placeOpcode_of_hasOpcode ho, place_fieldDR, place_fieldBase, place_fieldOff6, place_fieldOff9,
      place_lowByte, ← BitVec.and_or_distrib_left]
    rfl

/-- The bits used by the format of a row (R57). -/
def TableRow.usedBits (r : TableRow) : Word :=
  if r = ⟨0xF020, 0x1000⟩ ∨ r = ⟨0xF020, 0x5000⟩ then 0xFFE7
  else if r = ⟨0xF000, 0x9000⟩ then 0xFFC0
  else if r = ⟨0xF000, 0xC000⟩ then 0xF1C0
  else if r = ⟨0xF800, 0x4000⟩ then 0xF9C0
  else if r = ⟨0xF000, 0xF000⟩ then 0xF0FF
  else 0xFFFF

/-- Which bits are used depends on the row alone. -/
theorem usedBits_tableRow (i : Instr) : (tableRow i).usedBits = usedBits i := by
  cases i <;> rfl

theorem TableRow.usedBits_and_mask : ∀ r ∈ opcodeTable, r.usedBits &&& r.mask = r.mask := by
  decide

/-- Every format uses the bits its row tests. -/
theorem usedBits_and_mask (i : Instr) : usedBits i &&& (tableRow i).mask = (tableRow i).mask := by
  rw [← usedBits_tableRow]
  exact TableRow.usedBits_and_mask _ (tableRow_mem i)

theorem selects_of_and_usedBits_eq {w w' : Word} {i : Instr} (h : (tableRow i).selects w)
    (hu : w &&& usedBits i = w' &&& usedBits i) : (tableRow i).selects w' := by
  calc w' &&& (tableRow i).mask
    _ = w' &&& usedBits i &&& (tableRow i).mask := by rw [BitVec.and_assoc, usedBits_and_mask]
    _ = w &&& usedBits i &&& (tableRow i).mask := by rw [hu]
    _ = w &&& (tableRow i).mask := by rw [BitVec.and_assoc, usedBits_and_mask]
    _ = (tableRow i).pattern := h

/-- Words that agree on the used bits select one row, so their instructions have the same encoding. -/
theorem decodeWord_eq_of_and_usedBits_eq {w w' : Word}
    (h : w &&& usedBits (decodeWord w) = w' &&& usedBits (decodeWord w)) : decodeWord w' = decodeWord w := by
  have hw := decodesTo_decodeWord w
  have hw' := decodesTo_decodeWord w'
  have hrow : tableRow (decodeWord w') = tableRow (decodeWord w) :=
    row_eq_of_selects (tableRow_mem _) (tableRow_mem _) hw'.selects (selects_of_and_usedBits_eq hw.selects h)
  have hused : usedBits (decodeWord w') = usedBits (decodeWord w) := by
    rw [← usedBits_tableRow, hrow, usedBits_tableRow]
  have henc : encode (decodeWord w') = encode (decodeWord w) := by
    rw [hw'.encode_eq, hused, ← h, hw.encode_eq]
  rw [← decodeWord_encode hw'.wellFormed, henc, decodeWord_encode hw.wellFormed]

/-- Settles O5. -/
theorem ignoredBitsAreIgnored : Obligations.IgnoredBitsAreIgnored :=
  ⟨fun _ _ => decodeWord_eq_of_and_usedBits_eq, fun w => (decodesTo_decodeWord w).encode_eq⟩

end Sys2Proof
end

section
/-! PROOF. The Illegal encodings and the unknown vectors: what decodes to them and how their execution ends (30_encoding.md R58;
44_trap_and_illegal.md R121, R122; 60_exceptions.md R132, R145). -/

namespace Sys2Proof.Machine

/-- A vector with no service is answered as such, and nothing is changed (60_exceptions.md R145). -/
theorem trapDispatch_of_not_known {vec : Byte} (h : ¬ knownVector vec) (s : State) :
    trapDispatch vec s = .ok (.unknownVector, s) := by
  unfold trapDispatch
  split
  case h_7 => rfl
  all_goals exact absurd (by decide) h

theorem execTrap_of_not_known {vec : Byte} (h : ¬ knownVector vec) (s : State) :
    execTrap vec s = .next (raiseFatal (.unknownTrapVector vec) s) := by
  unfold execTrap
  rw [trapDispatch_of_not_known h]

/-- The Illegal variant is delivered for two opcodes only (R58). -/
theorem decodesToIllegal_iff (w : Word) :
    (∃ raw, decodeWord w = .rti raw ∨ decodeWord w = .reserved raw) ↔ hasOpcode 0b1000 w ∨ hasOpcode 0b1101 w := by
  constructor
  · rintro ⟨raw, h | h⟩
    · exact .inl (hasOpcode_of_decodeWord h)
    · exact .inr (hasOpcode_of_decodeWord h)
  · rintro (h | h)
    · exact ⟨w, .inl (DecodesTo.rti h).decodeWord_eq⟩
    · exact ⟨w, .inr (DecodesTo.reserved h).decodeWord_eq⟩

/-- Settles O6, from the format of a word and the meanings of the Illegal opcodes and of TRAP. -/
theorem illegalEncodingsExactly : Obligations.IllegalEncodingsExactly := by
  refine ⟨decodesToIllegal_iff, fun w h => (DecodesTo.rti h).decodeWord_eq, fun w h => (DecodesTo.reserved h).decodeWord_eq,
    fun raw s => ⟨⟨_, rfl, Alike.refl _⟩, ⟨_, rfl, Alike.refl _⟩⟩, fun vec s hk => ?_⟩
  exact ⟨decodeWord_encode rfl, _, execTrap_of_not_known hk s, Alike.refl _⟩

end Sys2Proof.Machine
end

section
/-! PROOF. The execute cycle: a step runs the word its fetch answers, a halted machine stands still, and a cancelled run is left
between two steps (40_execute_cycle.md R70, R71, R73; 60_exceptions.md R136). -/

namespace Sys2Proof.Machine

/-! ## One step -/

/-- The fetch of a word the bus answers increments the pc and records the address and the word (R71). -/
theorem fetch_of_read {s s' : State} {w : Word} (h : memRead s.pc s = .ok (w, s')) :
    fetch s = .ok (w, { s' with pc := s.pc + 1#16, fetchAddr := s.pc, fetchWord := w }) := by
  unfold fetch
  rw [h]

theorem fetch_of_read_error {s : State} {f : Fault} (h : memRead s.pc s = .error f) : fetch s = .error f := by
  unfold fetch
  rw [h]

/-- The two cells of a word, taken as bytes, decode as the word (R37, R55). -/
theorem decode_cells (m : Memory) (a : Word) :
    decode [m.readByte (2 * a.toNat), m.readByte (2 * a.toNat + 1)] = .ok (decodeWord (m.readWord a), []) := rfl

/-- Settles O38, from the fetch of the word at the pc and what the decoder makes of it. -/
theorem stepRunsTheDecodedInstruction : Obligations.StepRunsTheDecodedInstruction := by
  refine ⟨fun s s' w hr h => step_of_fetch hr (fetch_of_read h),
    fun s f hr h => step_of_fetch_error hr (fetch_of_read_error h),
    fun s hr => ⟨s, step_of_halted hr, Alike.refl s⟩, fun s i hr hdev hi => ?_⟩
  rw [decode_cells] at hi
  cases hi
  exact ⟨(decodesTo_decodeWord _).wellFormed, step_of_fetch hr (fetch_plain hdev)⟩

/-! ## Many steps -/

/-- Any number of steps of a halted machine answer that machine (R70). -/
theorem stepMany_of_halted {s : State} (h : s.run = .halted) (n : Nat) : stepMany n s = .next s := by
  induction n with
  | zero => rfl
  | succ n ih => simp only [stepMany, step_of_halted h, ih]

/-- Settles O40. -/
theorem haltedMachineStandsStill : Obligations.HaltedMachineStandsStill := fun s h n =>
  ⟨s, stepMany_of_halted h n, Alike.refl s⟩

/-- Steps that answer a state begin with one that does. -/
theorem stepMany_succ_next {n : Nat} {s t : State} (h : stepMany (n + 1) s = .next t) :
    ∃ s', step s = .next s' ∧ stepMany n s' = .next t := by
  rw [stepMany] at h
  split at h
  · exact ⟨_, ‹_›, h⟩
  · cases h
  · cases h

/-! ## A run with a flag -/

/-- A flag found raised cancels the run where it stands (R136). -/
theorem runLoop_raised (later : List Bool) (s : State) : runLoop (true :: later) s = .cancelled s := rfl

/-- A flag found lowered lets a halted machine stop (R73). -/
theorem runLoop_lowered_of_halted {s : State} (h : s.run = .halted) (later : List Bool) :
    runLoop (false :: later) s = .stopped s := by
  simp only [runLoop, h, Bool.false_eq_true, if_false]

/-- A flag found lowered lets a running machine take a step (R73). -/
theorem runLoop_lowered_of_step {s s' : State} (hr : s.run = .running) (h : step s = .next s') (later : List Bool) :
    runLoop (false :: later) s = runLoop later s' := by
  simp only [runLoop, hr, h, Bool.false_eq_true, if_false]

/-- Settles O60, by induction on the tests of the flag before it is raised: at each the machine is halted and stands still, or
it takes the step that `stepMany` takes. -/
theorem cancellationFindsTheStateBetweenSteps : Obligations.CancellationFindsTheStateBetweenSteps := by
  intro n later s t h
  induction n generalizing s with
  | zero =>
    cases h
    exact .inl (runLoop_raised later _)
  | succ n ih =>
    rw [List.replicate_succ, List.cons_append]
    cases hr : s.run with
    | halted =>
      cases (stepMany_of_halted hr (n + 1)).symm.trans h
      exact .inr ⟨hr, runLoop_lowered_of_halted hr _⟩
    | running =>
      obtain ⟨s', hs, hn⟩ := stepMany_succ_next h
      rw [runLoop_lowered_of_step hr hs]
      exact ih s' hn

end Sys2Proof.Machine
end

section
/-! PROOF. GETC and IN: the character read, and what the two services make of it (60_exceptions.md R139, R142, R146). -/

namespace Sys2Proof.Machine

/-! ## The character read -/

theorem readChar_of_char {s : State} {c : Byte} {rest : List InputEvent} (h : nextChar s.input.script = some (c, rest)) :
    readChar s = .ok (c, { s with input := { s.input with script := rest } }) := by
  simp only [readChar, h]

/-- An exhausted channel answers the sentinel, and its pauses have passed (R146). -/
theorem readChar_of_exhausted {s : State} (hn : nextChar s.input.script = none) (he : s.input.ending = .exhausted) :
    readChar s = .ok (0#8, { s with input := ⟨[], .exhausted⟩ }) := by
  simp only [readChar, hn, he]

theorem readChar_of_openEnded {s : State} (hn : nextChar s.input.script = none) (he : s.input.ending = .openEnded) :
    readChar s = .error (.waitsForInput ⟨⟨[], .openEnded⟩, s.output⟩) := by
  simp only [readChar, hn, he, waiting_eq he]

/-! ## The two services -/

/-- What TRAP answers for a service after which the run goes on (44_trap_and_illegal.md R120). -/
def ofService : Except Fault State → Result
  | .ok s => .next s
  | .error f => .fault f

theorem execTrap_of_service {vec : Byte} {s : State} {r : Except Fault State}
    (h : trapDispatch vec s = answering .goOn r) : execTrap vec s = ofService r := by
  unfold execTrap
  rw [h]
  cases r <;> rfl

theorem exec_getc (s : State) : exec (.trap 0x20) s = ofService (serviceGetc s) := execTrap_of_service rfl

theorem exec_in (s : State) : exec (.trap 0x23) s = ofService (serviceIn s) := execTrap_of_service rfl

theorem exec_getc_of_wait {s : State} {f : Fault} (h : readChar s = .error f) : exec (.trap 0x20) s = .fault f := by
  rw [exec_getc, serviceGetc, h, ofService]

theorem exec_in_of_wait {s : State} {f : Fault} (h : readChar (s.put s.cfg.inPrompt) = .error f) :
    exec (.trap 0x23) s = .fault f := by
  rw [exec_in, serviceIn, h, ofService]

theorem sameRegsBut_setReg (s : State) (r : RegIdx) (v : Word) : sameRegsBut r s (s.setReg r v) :=
  fun _ h => State.reg_setReg_of_ne s v h

/-- GETC with the character read puts it in R0, and changes nothing but R0 and the input (R139). -/
theorem exec_getc_of_char {s : State} {c : Byte} {ch : InputChannel} (h : readChar s = .ok (c, { s with input := ch })) :
    ∃ t, exec (.trap 0x20) s = .next t ∧ t.reg 0 = zext8 c ∧ t.input = ch ∧ t.output = s.output
      ∧ sameRegsBut 0 s t ∧ t.cc = s.cc ∧ t.pc = s.pc ∧ sameMemory s t ∧ sameEngine s t := by
  rw [exec_getc, serviceGetc, h]
  exact ⟨_, rfl, State.reg_setReg_self _ _ _, rfl, rfl, sameRegsBut_setReg _ _ _, rfl, rfl, fun _ _ => rfl,
    rfl, rfl, rfl, rfl, rfl⟩

/-- IN with the character read after the prompt echoes it and puts it in R0, and changes nothing but R0 and the channels
(R142). -/
theorem exec_in_of_char {s : State} {c : Byte} {ch : InputChannel}
    (h : readChar (s.put s.cfg.inPrompt) = .ok (c, { s.put s.cfg.inPrompt with input := ch })) :
    ∃ t, exec (.trap 0x23) s = .next t ∧ t.reg 0 = zext8 c ∧ t.input = ch ∧ t.output = s.output ++ s.cfg.inPrompt ++ [c]
      ∧ sameRegsBut 0 s t ∧ t.cc = s.cc ∧ t.pc = s.pc ∧ sameMemory s t ∧ sameEngine s t := by
  rw [exec_in, serviceIn, h]
  exact ⟨_, rfl, State.reg_setReg_self _ _ _, rfl, rfl, sameRegsBut_setReg _ _ _, rfl, rfl, fun _ _ => rfl,
    rfl, rfl, rfl, rfl, rfl⟩

/-- Settles O26, one clause for each answer of the character read. -/
theorem getcCompletes : Obligations.GetcCompletes :=
  ⟨fun _ _ _ hc => exec_getc_of_char (readChar_of_char hc),
    fun _ hn he => exec_getc_of_char (readChar_of_exhausted hn he),
    fun _ hn he => exec_getc_of_wait (readChar_of_openEnded hn he)⟩

/-- Settles O29, one clause for each answer of the character read after the prompt. -/
theorem inCompletes : Obligations.InCompletes :=
  ⟨fun _ _ _ hc => exec_in_of_char (readChar_of_char hc),
    fun s hn he => exec_in_of_char (readChar_of_exhausted (s := s.put s.cfg.inPrompt) hn he),
    fun s hn he => exec_in_of_wait (readChar_of_openEnded (s := s.put s.cfg.inPrompt) hn he)⟩

end Sys2Proof.Machine
end

section
/-! PROOF. The datapath under the control table is the instruction's meaning (40_execute_cycle.md R75, R76): the memory sequencer
makes the reads and writes of the meaning, and the write-back and the PC mux take the fields the decoder delivers. -/

namespace Sys2Proof.Machine

/-- A read stops, or answers and moves the input channel on. -/
theorem memRead_cases (addr : Word) (s : State) :
    (∃ f, memRead addr s = .error f) ∨ ∃ v ch, memRead addr s = .ok (v, { s with input := ch }) := by
  cases h : memRead addr s with
  | error f => exact .inl ⟨f, rfl⟩
  | ok r =>
    obtain ⟨ch, hs, -⟩ := memRead_ok h
    exact .inr ⟨r.1, ch, by rw [← hs]⟩

/-! ## The phases of a row that is neither fatal nor a trap -/

section
variable {c : Control} {w : Word} {s : State} (hf : c.fatal = false) (ht : c.trapreq = false)
include hf ht

theorem datapath_of_stop {f : Fault} (h : memSequence c.mseq (adderOut c w s) (s.reg (fieldDR w)) s = .error f) :
    datapath c w s = .fault f := by
  simp only [datapath, hf, ht, h, Bool.false_eq_true, if_false]

theorem datapath_of_sequence {m1 m2 : Word} {s1 : State}
    (h : memSequence c.mseq (adderOut c w s) (s.reg (fieldDR w)) s = .ok (m1, m2, s1)) :
    datapath c w s = .next ((writeBack c w (writeData c w m1 m2 s) s1).setPc
      (nextPc c w s (writeBack c w (writeData c w m1 m2 s) s1))) := by
  simp only [datapath, hf, ht, h, Bool.false_eq_true, if_false]

end

/-! ## The memory sequencer -/

section
variable {ea data m1 : Word} {s s1 : State} {f : Fault}

theorem memSequence_r_of_read (h : memRead ea s = .ok (m1, s1)) : memSequence .r ea data s = .ok (m1, 0, s1) := by
  simp only [memSequence, h]

theorem memSequence_r_of_stop (h : memRead ea s = .error f) : memSequence .r ea data s = .error f := by
  simp only [memSequence, h]

theorem memSequence_rr_of_reads {m2 : Word} {s2 : State} (h : memRead ea s = .ok (m1, s1))
    (h' : memRead m1 s1 = .ok (m2, s2)) : memSequence .rr ea data s = .ok (m1, m2, s2) := by
  simp only [memSequence, h, h']

theorem memSequence_rr_of_stop
    (h : memRead ea s = .error f ∨ ∃ ptr s', memRead ea s = .ok (ptr, s') ∧ memRead ptr s' = .error f) :
    memSequence .rr ea data s = .error f := by
  obtain h | ⟨ptr, s', h, h'⟩ := h
  · simp only [memSequence, h]
  · simp only [memSequence, h, h']

theorem memSequence_rw_of_read (h : memRead ea s = .ok (m1, s1)) :
    memSequence .rw ea data s = .ok (m1, 0, memWrite m1 data s1) := by
  simp only [memSequence, h]

theorem memSequence_rw_of_stop (h : memRead ea s = .error f) : memSequence .rw ea data s = .error f := by
  simp only [memSequence, h]

end

/-! ## The rows that read -/

/-- The row of LD and LDR, which differ in how the adder forms the address (R76). -/
def loadRow (abase : ABase) (aoff : AOff) : Control :=
  { abase, aoff, mseq := .r, wen := true, wsrc := .m1, ccen := true }

theorem controlRow_ld (dr : RegIdx) (off : Word) : controlRow (.ld dr off) = loadRow .pc .off9 := rfl

theorem controlRow_ldr (dr base : RegIdx) (off : Word) : controlRow (.ldr dr base off) = loadRow .baseR .off6 := rfl

/-- LD and LDR: one read at the adder's address, then the write-back (R96, R98). -/
theorem datapath_loadRow (abase : ABase) (aoff : AOff) (w : Word) (s : State) :
    datapath (loadRow abase aoff) w s = loadInto (fieldDR w) (adderOut (loadRow abase aoff) w s) s := by
  obtain ⟨f, h⟩ | ⟨v, ch, h⟩ := memRead_cases (adderOut (loadRow abase aoff) w s) s
  · exact (datapath_of_stop rfl rfl (memSequence_r_of_stop h)).trans (loadInto_eq_fault_iff.2 h).symm
  · exact (datapath_of_sequence rfl rfl (memSequence_r_of_read h)).trans (loadInto_of_read h).symm

/-- LDI: the read of the pointer, the read through it, the write-back (R97). -/
theorem datapath_ldi (dr : RegIdx) (off w : Word) (s : State) :
    datapath (controlRow (.ldi dr off)) w s = execLdi (fieldDR w) (fieldOff9 w) s := by
  obtain ⟨f, h⟩ | ⟨ptr, ch, h⟩ := memRead_cases (s.pc + fieldOff9 w) s
  · exact (datapath_of_stop rfl rfl (memSequence_rr_of_stop (.inl h))).trans (execLdi_eq_fault_iff.2 (.inl h)).symm
  obtain ⟨f, h'⟩ | ⟨v, ch', h'⟩ := memRead_cases ptr { s with input := ch }
  · exact (datapath_of_stop rfl rfl (memSequence_rr_of_stop (.inr ⟨ptr, _, h, h'⟩))).trans
      (execLdi_eq_fault_iff.2 (.inr ⟨ptr, _, h, h'⟩)).symm
  · refine (datapath_of_sequence rfl rfl (memSequence_rr_of_reads h h')).trans ?_
    rw [execLdi, pcRelative, h, onRead, loadInto_of_read h']
    rfl

/-- STI: the read of the pointer, then the write through it (R101). -/
theorem datapath_sti (sr : RegIdx) (off w : Word) (s : State) :
    datapath (controlRow (.sti sr off)) w s = execSti (fieldDR w) (fieldOff9 w) s := by
  obtain ⟨f, h⟩ | ⟨ptr, ch, h⟩ := memRead_cases (s.pc + fieldOff9 w) s
  · exact (datapath_of_stop rfl rfl (memSequence_rw_of_stop h)).trans (execSti_eq_fault_iff.2 h).symm
  · refine (datapath_of_sequence rfl rfl (memSequence_rw_of_read h)).trans ?_
    rw [execSti, pcRelative, h, onRead]
    rfl

/-! ## The rows that transfer control -/

/-- BR: the branch test of the PC mux on the request bits of the word (R110). -/
theorem datapath_br (n z p : Bool) (off w : Word) (s : State) :
    datapath (controlRow (.br n z p off)) w s
      = execBr (w.getLsbD 11) (w.getLsbD 10) (w.getLsbD 9) (fieldOff9 w) s := by
  have htest : (w.getLsbD 11 && s.cc == .n || w.getLsbD 10 && s.cc == .z || w.getLsbD 9 && s.cc == .p)
      = taken (w.getLsbD 11) (w.getLsbD 10) (w.getLsbD 9) s.cc := by
    rw [Bool.eq_iff_iff, taken_iff]
    simp only [Bool.or_eq_true, Bool.and_eq_true, beq_iff_eq, or_assoc]
  rw [execBr_eq, ← htest]
  rfl

/-- JMP links nothing, so when the base is read does not matter (R111). -/
theorem datapath_jmp (base : RegIdx) (w : Word) (s : State) :
    datapath (controlRow (.jmp base)) w s = execJmp (fieldBase w) s := by
  have hpc : nextPc (controlRow (.jmp base)) w s s = s.reg (fieldBase w) := by
    unfold nextPc controlRow
    cases s.cfg.jsrrBaseRead <;> rfl
  rw [execJmp, ← hpc]
  rfl

/-- Settles O39, format by format of the word: the instruction's meaning takes from the word the fields its row's elements
take. -/
theorem datapathRunsTheWord : Obligations.DatapathRunsTheWord := by
  intro w s
  have hw := decodesTo_decodeWord w
  generalize decodeWord w = i at hw ⊢
  cases hw with
  -- Nothing is read and nothing chosen: both sides compute the same next state.
  | addReg | addImm | andReg | andImm | notReg | lea | st | str | jsr | rti | reserved | trap => rfl
  | ld =>
    rw [controlRow_ld]
    exact datapath_loadRow .pc .off9 w s
  | ldr =>
    rw [controlRow_ldr]
    exact datapath_loadRow .baseR .off6 w s
  | ldi => exact datapath_ldi _ _ w s
  | sti => exact datapath_sti _ _ w s
  | br => exact datapath_br _ _ _ _ w s
  | jmp => exact datapath_jmp _ w s
  | jsrr => exact (execJsrr_eq _ s).symm

end Sys2Proof.Machine
end

section
/-! PROOF. A wait the host ends: a step taken again after a character is supplied goes the same way up to the read that waited, and
from there on starts from the channels the wait left (40_execute_cycle.md R78; 70_reset_and_hazards.md R170). -/

namespace Sys2Proof.Machine

/-! ## The state with a character supplied -/

/-- The channel with a character supplied behind its script, unless none can arrive any more (R170). -/
def InputChannel.supplied (c : Byte) (ch : InputChannel) : InputChannel :=
  match ch.ending with
  | .openEnded => { ch with script := ch.script ++ [.char c] }
  | .exhausted => ch

/-- Supplying a character changes the input channel only. -/
theorem supplyChar_eq (c : Byte) (s : State) : supplyChar c s = { s with input := s.input.supplied c } := by
  cases he : s.input.ending <;> simp only [supplyChar, InputChannel.supplied, he]

@[simp] theorem supplyChar_pc (c : Byte) (s : State) : (supplyChar c s).pc = s.pc := by rw [supplyChar_eq]

@[simp] theorem supplyChar_cfg (c : Byte) (s : State) : (supplyChar c s).cfg = s.cfg := by rw [supplyChar_eq]

@[simp] theorem supplyChar_output (c : Byte) (s : State) : (supplyChar c s).output = s.output := by rw [supplyChar_eq]

@[simp] theorem supplyChar_input (c : Byte) (s : State) : (supplyChar c s).input = s.input.supplied c := by
  rw [supplyChar_eq]

@[simp] theorem reg_supplyChar (c : Byte) (s : State) (r : RegIdx) : (supplyChar c s).reg r = s.reg r := by
  rw [supplyChar_eq]
  rfl

theorem put_supplyChar (c : Byte) (s : State) (bs : List Byte) : (supplyChar c s).put bs = supplyChar c (s.put bs) := by
  rw [supplyChar_eq, supplyChar_eq]
  rfl

theorem InputChannel.supplied_of_openEnded {ch : InputChannel} (h : ch.ending = .openEnded) (c : Byte) :
    ch.supplied c = ⟨ch.script ++ [.char c], .openEnded⟩ := by
  simp only [InputChannel.supplied, h]

theorem InputChannel.supplied_of_exhausted {ch : InputChannel} (h : ch.ending = .exhausted) (c : Byte) :
    ch.supplied c = ch := by
  simp only [InputChannel.supplied, h]

theorem InputChannel.length_script_le_supplied (c : Byte) (ch : InputChannel) :
    ch.script.length ≤ (ch.supplied c).script.length := by
  cases he : ch.ending with
  | openEnded => simp [supplied_of_openEnded he]
  | exhausted => rw [supplied_of_exhausted he]

/-! ## The next character with one supplied -/

theorem nextChar_append_of_some {script rest : List InputEvent} {d : Byte} (h : nextChar script = some (d, rest))
    (later : List InputEvent) : nextChar (script ++ later) = some (d, rest ++ later) := by
  induction script with
  | nil => cases h
  | cons e script ih =>
    cases e with
    | char d' =>
      cases h
      rfl
    | pause => exact ih h

theorem nextChar_append_of_none {script : List InputEvent} (h : nextChar script = none) (later : List InputEvent) :
    nextChar (script ++ later) = nextChar later := by
  induction script with
  | nil => rfl
  | cons e script ih =>
    cases e with
    | char d => cases h
    | pause => exact ih h

/-- A character supplied behind another leaves that one the next. -/
theorem InputChannel.nextChar_supplied (ch : InputChannel) {d : Byte} {rest : List InputEvent}
    (h : nextChar ch.script = some (d, rest)) (c : Byte) :
    ∃ rest', nextChar (ch.supplied c).script = some (d, rest')
      ∧ { ch.supplied c with script := rest' } = ({ ch with script := rest } : InputChannel).supplied c := by
  obtain ⟨script, ending⟩ := ch
  cases ending with
  | exhausted => exact ⟨rest, h, rfl⟩
  | openEnded => exact ⟨_, nextChar_append_of_some h _, rfl⟩

/-- Where a wait would be held, the supplied character is the next one, and nothing is left behind it. -/
theorem nextChar_supplyChar {s : State} (hn : nextChar s.input.script = none) (he : s.input.ending = .openEnded) (c : Byte) :
    nextChar (supplyChar c s).input.script = some (c, []) := by
  rw [supplyChar_input, InputChannel.supplied_of_openEnded he, nextChar_append_of_none hn]
  rfl

/-! ## Channels that go on from a wait -/

/-- The channels go on from those a wait left: the bytes put stay at the front of the output, and no input is to come but what
was left and the supplied character (R78). -/
structure Resumes (c : Byte) (left ch : Channels) : Prop where
  output : left.output <+: ch.output
  script : ch.input.script <:+ left.input.script ++ [.char c]

theorem Resumes.of_leftBy {c : Byte} {left ch : Channels} {u : State} (h : Resumes c left u.channels) (hl : LeftBy u ch) :
    Resumes c left ch := by
  obtain ⟨bs, hbs⟩ := hl.output
  exact ⟨h.output.trans ⟨bs, hbs.symm⟩, hl.input.script.trans h.script⟩

theorem Resumes.put {c : Byte} {left : Channels} {u : State} (h : Resumes c left u.channels) (bs : List Byte) :
    Resumes c left (u.put bs).channels := h.of_leftBy ⟨MovedOn.refl _, bs, rfl⟩

/-- The read that waited has taken the supplied character: nothing is left to come, and nothing has been put. -/
theorem resumes_taken (c : Byte) (s : State) : Resumes c s.waiting
    ({ supplyChar c s with input := { (supplyChar c s).input with script := [] } } : State).channels where
  output := by simp [State.channels, State.waiting]
  script := List.nil_suffix

/-- With no script left, the supplied character is all the input there is. -/
theorem resumes_supplyChar {s : State} (h : s.input.script = []) (c : Byte) :
    Resumes c s.waiting (supplyChar c s).channels := by
  refine ⟨by simp [State.channels, State.waiting], ?_⟩
  simp only [State.channels, State.waiting, supplyChar_input]
  cases he : s.input.ending with
  | openEnded => simp [InputChannel.supplied_of_openEnded he, h]
  | exhausted => simp [InputChannel.supplied_of_exhausted he, h]

/-- Whatever the result, the channels it leaves have the property. -/
def Leaves (P : Channels → Prop) : Result → Prop
  | .next t => P t.channels
  | .fault f => P f.left
  | .refused _ => True

theorem exec_leaves (i : Instr) (s : State) : Leaves (LeftBy s) (exec i s) := by
  cases h : exec i s with
  | next t => exact (exec_effect h).leftBy
  | fault f => exact leftBy_of_exec_fault h
  | refused r => trivial

theorem scanString_leaves (word : Word → List Byte × Bool) (n : Nat) (p : Word) (s : State) :
    Leaves (LeftBy s) (ofService (scanString word n p s)) := by
  cases h : scanString word n p s with
  | ok t =>
    obtain ⟨ch, bs, rfl, hm⟩ := scanString_ok h
    exact ⟨hm, bs, rfl⟩
  | error f => exact scanString_error h

theorem Resumes.leaves {c : Byte} {left : Channels} {u : State} {r : Result} (h : Resumes c left u.channels)
    (hr : Leaves (LeftBy u) r) : Leaves (Resumes c left) r := by
  cases r with
  | next t => exact h.of_leftBy hr
  | fault f => exact h.of_leftBy hr
  | refused r => trivial

/-! ## Reads with a character supplied -/

theorem InputChannel.poll_supplied {ch : InputChannel} (h : ch.script ≠ []) (c : Byte) :
    (ch.supplied c).avail = ch.avail ∧ (ch.supplied c).afterPoll = ch.afterPoll.supplied c := by
  obtain ⟨_ | ⟨e, rest⟩, ending⟩ := ch
  · exact absurd rfl h
  · cases e <;> cases ending <;> exact ⟨rfl, rfl⟩

/-- A poll of a script that has not run out does not see the character behind it (R33). -/
theorem kbsrRead_supplyChar {s : State} (h : s.input.script ≠ []) (c : Byte) :
    kbsrRead (supplyChar c s) = ((kbsrRead s).1, supplyChar c (kbsrRead s).2) := by
  obtain ⟨havail, hafter⟩ := InputChannel.poll_supplied h c
  rw [kbsrRead, supplyChar_input, havail, hafter, supplyChar_eq, supplyChar_eq]
  rfl

/-- A data read that finds a character takes that one, not the one behind it (R34). -/
theorem kbdrRead_supplyChar {s s' : State} {v : Word} (h : kbdrRead s = .ok (v, s')) (c : Byte) :
    kbdrRead (supplyChar c s) = .ok (v, supplyChar c s') := by
  obtain ⟨d, rest, hd, rfl, rfl⟩ := kbdrRead_ok h
  obtain ⟨rest', hd', hch⟩ := s.input.nextChar_supplied hd c
  rw [← supplyChar_input] at hd'
  rw [kbdrRead_of_char hd', supplyChar_input, hch, supplyChar_eq, supplyChar_eq]

/-- A read that answers does so alike with a character supplied, but for the status read of a script that has run out, which
answered zero and finds the character now (R33). -/
theorem memRead_supplyChar {s s' : State} {addr v : Word} (h : memRead addr s = .ok (v, s')) (c : Byte) :
    memRead addr (supplyChar c s) = .ok (v, supplyChar c s') ∨ (s.input.script = [] ∧ v = 0#16 ∧ s' = s) := by
  unfold memRead at h ⊢
  simp only [supplyChar_cfg]
  split at h
  · rename_i ha
    by_cases hs : s.input.script = []
    · cases h
      exact .inr ⟨hs, by simp [InputChannel.avail, hs], by simp [InputChannel.afterPoll, hs]⟩
    · cases h
      rw [if_pos ha, kbsrRead_supplyChar hs]
      exact .inl rfl
  · rename_i ha
    rw [if_neg ha]
    split at h
    · rename_i ha'
      rw [if_pos ha']
      exact .inl (kbdrRead_supplyChar h c)
    · rename_i ha'
      cases h
      rw [if_neg ha', supplyChar_eq]
      exact .inl rfl

/-- A character read that waited takes the supplied character. -/
theorem readChar_resumes {s : State} {left : Channels} (h : readChar s = .error (.waitsForInput left)) (c : Byte) :
    ∃ u, readChar (supplyChar c s) = .ok (c, u) ∧ Resumes c left u.channels := by
  obtain ⟨hn, he, hl⟩ := readChar_error h
  cases hl
  exact ⟨_, readChar_of_char (nextChar_supplyChar hn he c), resumes_taken c s⟩

/-- A read through the bus that waited takes the supplied character. -/
theorem memRead_resumes {s : State} {addr : Word} {left : Channels} (h : memRead addr s = .error (.waitsForInput left))
    (c : Byte) : ∃ u, memRead addr (supplyChar c s) = .ok (zext8 c, u) ∧ Resumes c left u.channels := by
  obtain ⟨rfl, hn, hf⟩ := memRead_error h
  have hwf : (supplyChar c s).cfg.wf := by
    rw [supplyChar_cfg]
    intro e
    rw [← e, memRead_kbsr] at h
    cases h
  cases he : s.input.ending with
  | exhausted =>
    rw [he] at hf
    cases hf
  | openEnded =>
    rw [he] at hf
    cases hf
    rw [← supplyChar_cfg c s, memRead_kbdr hwf]
    exact ⟨_, kbdrRead_of_char (nextChar_supplyChar hn he c), resumes_taken c s⟩

/-! ## Instructions that waited -/

theorem loadInto_resumes {dr : RegIdx} {ea : Word} {s : State} {left : Channels}
    (h : loadInto dr ea s = .fault (.waitsForInput left)) (c : Byte) :
    Leaves (Resumes c left) (loadInto dr ea (supplyChar c s)) := by
  obtain ⟨u, hu, hres⟩ := memRead_resumes (loadInto_eq_fault_iff.1 h) c
  rw [loadInto_of_read hu]
  exact hres

theorem loadInto_leaves (dr : RegIdx) (ea : Word) (s : State) : Leaves (LeftBy s) (loadInto dr ea s) := by
  cases h : loadInto dr ea s with
  | next t =>
    obtain ⟨v, ch, rfl, hm⟩ := loadInto_frame h
    exact ⟨hm, [], (List.append_nil _).symm⟩
  | fault f => exact leftBy_of_loadInto h
  | refused r => trivial

theorem execLdi_of_read {dr : RegIdx} {off ptr : Word} {s s' : State} (h : memRead (s.pc + off) s = .ok (ptr, s')) :
    execLdi dr off s = loadInto dr ptr s' := by
  rw [execLdi, pcRelative, h, onRead]

/-- LDI waits for its pointer or for its data; only a pointer read from the status address can be another one now, and then the
supplied character is still to come. -/
theorem execLdi_resumes {dr : RegIdx} {off : Word} {s : State} {left : Channels}
    (h : execLdi dr off s = .fault (.waitsForInput left)) (c : Byte) :
    Leaves (Resumes c left) (execLdi dr off (supplyChar c s)) := by
  obtain he | ⟨ptr, s', hr, he⟩ := execLdi_eq_fault_iff.1 h
  · obtain ⟨u, hu, hres⟩ := memRead_resumes he c
    rw [← supplyChar_pc c s] at hu
    rw [execLdi_of_read hu]
    exact hres.leaves (loadInto_leaves dr _ u)
  · obtain hr' | ⟨hs, -, rfl⟩ := memRead_supplyChar hr c
    · rw [← supplyChar_pc c s] at hr'
      rw [execLdi_of_read hr']
      exact loadInto_resumes (loadInto_eq_fault_iff.2 he) c
    · have hleft : left = s'.waiting := memRead_left he
      subst hleft
      exact (resumes_supplyChar hs c).leaves (exec_leaves (.ldi dr off) _)

theorem execSti_resumes {sr : RegIdx} {off : Word} {s : State} {left : Channels}
    (h : execSti sr off s = .fault (.waitsForInput left)) (c : Byte) :
    Leaves (Resumes c left) (execSti sr off (supplyChar c s)) := by
  obtain ⟨u, hu, hres⟩ := memRead_resumes (execSti_eq_fault_iff.1 h) c
  rw [execSti, pcRelative, supplyChar_pc, hu, onRead]
  exact hres

/-! ## Services that waited -/

theorem serviceGetc_resumes {s : State} {left : Channels} (h : serviceGetc s = .error (.waitsForInput left)) (c : Byte) :
    Leaves (Resumes c left) (ofService (serviceGetc (supplyChar c s))) := by
  obtain ⟨u, hu, hres⟩ := readChar_resumes (serviceGetc_error h) c
  rw [serviceGetc, hu]
  exact hres

theorem serviceIn_resumes {s : State} {left : Channels} (h : serviceIn s = .error (.waitsForInput left)) (c : Byte) :
    Leaves (Resumes c left) (ofService (serviceIn (supplyChar c s))) := by
  obtain ⟨u, hu, hres⟩ := readChar_resumes (serviceIn_error h) c
  rw [serviceIn, supplyChar_cfg, put_supplyChar, hu]
  exact hres.put [c]

theorem scanString_of_read {word : Word → List Byte × Bool} {n : Nat} {p w : Word} {s s' : State}
    (h : memRead p s = .ok (w, s')) :
    scanString word (n + 1) p s =
      if (word w).2 then .ok (s'.put (word w).1) else scanString word n (p + 1#16) (s'.put (word w).1) := by
  rw [scanString, h]

theorem scanString_of_read_error {word : Word → List Byte × Bool} {n : Nat} {p : Word} {s : State} {f : Fault}
    (h : memRead p s = .error f) : scanString word (n + 1) p s = .error f := by
  rw [scanString, h]

/-- A scan that waited reads the same words again up to the wait: a status read that answers otherwise now answered zero then,
which ended the string. The script is longer by one event, and so may be the bound. -/
theorem scanString_resumes {word : Word → List Byte × Bool} (hz : (word 0#16).2 = true) {n m : Nat} (hnm : n ≤ m)
    {p : Word} {s : State} {left : Channels} (h : scanString word n p s = .error (.waitsForInput left)) (c : Byte) :
    Leaves (Resumes c left) (ofService (scanString word m p (supplyChar c s))) := by
  induction n generalizing m p s with
  | zero => cases h
  | succ n ih =>
    obtain ⟨m, rfl⟩ := Nat.exists_eq_add_of_le' hnm
    cases hr : memRead p s with
    | error f =>
      rw [scanString_of_read_error hr] at h
      cases h
      obtain ⟨u, hu, hres⟩ := memRead_resumes hr c
      rw [← Nat.add_assoc, scanString_of_read hu]
      split
      · exact hres.put _
      · exact (hres.put _).leaves (scanString_leaves word _ _ _)
    | ok r =>
      obtain ⟨w, s'⟩ := r
      rw [scanString_of_read hr] at h
      split at h
      · cases h
      · rename_i hw
        obtain hr' | ⟨-, rfl, -⟩ := memRead_supplyChar hr c
        · rw [← Nat.add_assoc, scanString_of_read hr', if_neg hw, put_supplyChar]
          exact ih (by omega) h
        · exact absurd hz hw

theorem scanBound_le_supplyChar (c : Byte) (s : State) : scanBound s ≤ scanBound (supplyChar c s) := by
  have := s.input.length_script_le_supplied c
  simp only [scanBound, supplyChar_input]
  omega

theorem execTrap_resumes {vec : Byte} {s : State} {left : Channels} (h : execTrap vec s = .fault (.waitsForInput left))
    (c : Byte) : Leaves (Resumes c left) (execTrap vec (supplyChar c s)) := by
  have hd := execTrap_fault h
  unfold trapDispatch at hd
  split at hd
  · rw [execTrap_of_service rfl]
    exact serviceGetc_resumes (answering_error hd) c
  · cases hd
  · rw [execTrap_of_service rfl, servicePuts, reg_supplyChar]
    exact scanString_resumes rfl (scanBound_le_supplyChar c s) (answering_error hd) c
  · rw [execTrap_of_service rfl]
    exact serviceIn_resumes (answering_error hd) c
  · rw [execTrap_of_service rfl, servicePutsp, reg_supplyChar]
    exact scanString_resumes rfl (scanBound_le_supplyChar c s) (answering_error hd) c
  · cases hd
  · cases hd

/-- The waits over all constructors (R74). -/
theorem exec_resumes {i : Instr} {s : State} {left : Channels} (h : exec i s = .fault (.waitsForInput left)) (c : Byte) :
    Leaves (Resumes c left) (exec i (supplyChar c s)) := by
  cases i with
  | ld dr off =>
    have hl := loadInto_resumes h c
    rwa [pcRelative, ← supplyChar_pc c s] at hl
  | ldr dr base off =>
    have hl := loadInto_resumes h c
    rwa [baseOffset, ← reg_supplyChar c s] at hl
  | ldi dr off => exact execLdi_resumes h c
  | sti sr off => exact execSti_resumes h c
  | trap vec => exact execTrap_resumes h c
  | jsrr base => exact absurd h (execJsrr_ne_fault base s _)
  | _ => cases h

/-! ## Steps that waited -/

/-- A fetch that answers does so alike with a character supplied, but for a status read that answered the zero word. -/
theorem fetch_supplyChar {s s' : State} {w : Word} (h : fetch s = .ok (w, s')) (c : Byte) :
    fetch (supplyChar c s) = .ok (w, supplyChar c s') ∨ w = 0#16 := by
  obtain ⟨ch, hr, -, rfl⟩ := fetch_ok h
  refine (memRead_supplyChar hr c).imp (fun hr' => ?_) fun hz => hz.2.1
  rw [← supplyChar_pc c s] at hr'
  rw [fetch_of_read hr', supplyChar_eq, supplyChar_eq, supplyChar_eq]

/-- The zero word is a branch never taken, which waits for nothing (R169). -/
theorem exec_zero_ne_fault (s : State) (f : Fault) : exec (decodeWord 0#16) s ≠ .fault f := by
  have hdec : decodeWord 0#16 = .br false false false 0#16 := by decide
  rw [hdec]
  exact fun h => nomatch h

theorem running_of_step_fault {s : State} {f : Fault} (h : step s = .fault f) : s.run = .running := by
  cases hr : s.run with
  | running => rfl
  | halted => cases (step_of_halted hr).symm.trans h

/-- A step that waited goes on from its wait once a character is supplied. -/
theorem step_resumes {s : State} {left : Channels} (h : step s = .fault (.waitsForInput left)) (c : Byte) :
    Leaves (Resumes c left) (step (supplyChar c s)) := by
  have hrun : (supplyChar c s).run = .running := (supplyChar_run c s).trans (running_of_step_fault h)
  obtain hf | ⟨w, s', hf, he⟩ := step_fault h
  · obtain ⟨u, hu, hres⟩ := memRead_resumes (fetch_error hf) c
    rw [← supplyChar_pc c s] at hu
    rw [step_of_fetch hrun (fetch_of_read hu)]
    refine Resumes.leaves ?_ (exec_leaves _ _)
    exact hres
  · obtain hf' | rfl := fetch_supplyChar hf c
    · rw [step_of_fetch hrun hf']
      exact exec_resumes he c
    · exact absurd he (exec_zero_ne_fault s' _)

/-- Settles O59: the services and the data read on a channel with a character supplied or declared exhausted, and the step that
goes on from its wait. -/
theorem suppliedCharacterEndsTheWait : Obligations.SuppliedCharacterEndsTheWait := by
  refine ⟨fun s c hn he => ?_, fun s hn => ?_, fun s c left h => ?_⟩
  · have hc := nextChar_supplyChar hn he c
    refine ⟨?_, ?_, ⟨_, kbdrRead_of_char hc⟩⟩
    · obtain ⟨t, ht, hreg, -⟩ := exec_getc_of_char (readChar_of_char hc)
      exact ⟨t, ht, hreg⟩
    · obtain ⟨t, ht, hreg, -, hout, -⟩ := exec_in_of_char (s := supplyChar c s) (readChar_of_char hc)
      exact ⟨t, ht, hreg, by simpa using hout⟩
  · refine ⟨?_, ?_⟩
    · obtain ⟨t, ht, hreg, -⟩ := exec_getc_of_char (readChar_of_exhausted (s := declareExhausted s) hn rfl)
      exact ⟨t, ht, hreg⟩
    · obtain ⟨t, ht, hreg, -, hout, -⟩ :=
        exec_in_of_char (readChar_of_exhausted (s := (declareExhausted s).put s.cfg.inPrompt) hn rfl)
      exact ⟨t, ht, hreg, hout⟩
  · have hres := step_resumes h c
    refine ⟨fun t ht => ?_, fun f hf => ?_⟩
    · rw [ht] at hres
      exact ⟨hres.output, hres.script⟩
    · rw [hf] at hres
      exact ⟨hres.output, hres.script⟩


end Sys2Proof.Machine
end

section
/-! PROOF. ADD, AND and NOT: each ends by writing its ALU result to the destination, in every state (41_operate.md R85
to R90). -/

namespace Sys2Proof.Machine

/-! ## What each form answers -/

theorem exec_addReg (dr sr1 sr2 : RegIdx) (s : State) :
    exec (.addReg dr sr1 sr2) s = .next (s.writeDest dr (s.reg sr1 + s.reg sr2)) := rfl

theorem exec_addImm (dr sr1 : RegIdx) (imm : Word) (s : State) :
    exec (.addImm dr sr1 imm) s = .next (s.writeDest dr (s.reg sr1 + imm)) := rfl

theorem exec_andReg (dr sr1 sr2 : RegIdx) (s : State) :
    exec (.andReg dr sr1 sr2) s = .next (s.writeDest dr (s.reg sr1 &&& s.reg sr2)) := rfl

theorem exec_andImm (dr sr1 : RegIdx) (imm : Word) (s : State) :
    exec (.andImm dr sr1 imm) s = .next (s.writeDest dr (s.reg sr1 &&& imm)) := rfl

theorem exec_notReg (dr sr : RegIdx) (s : State) : exec (.notReg dr sr) s = .next (s.writeDest dr (~~~(s.reg sr))) := rfl

/-! ## The write to the destination -/

theorem sameRegsBut_writeDest (s : State) (dr : RegIdx) (v : Word) : sameRegsBut dr s (s.writeDest dr v) :=
  fun _ h => State.reg_writeDest_of_ne s v h

/-- An instruction that ends by writing `v` to its destination (R18) changes that register and the condition alone. -/
theorem completes_of_writeDest {i : Instr} {s : State} {dr : RegIdx} {v : Word} (h : exec i s = .next (s.writeDest dr v)) :
    ∃ t, exec i s = .next t ∧ t.reg dr = v ∧ t.cc = condOf v
      ∧ sameRegsBut dr s t ∧ t.pc = s.pc ∧ sameMemory s t ∧ sameEngine s t ∧ sameChannels s t :=
  ⟨_, h, State.reg_writeDest_self s dr v, State.writeDest_cc s dr v, sameRegsBut_writeDest s dr v,
    State.writeDest_pc s dr v, fun _ _ => rfl, ⟨rfl, rfl, rfl, rfl, rfl⟩, rfl, rfl⟩

/-! ## The three instructions -/

/-- Settles O11: both forms write the sum to the destination. -/
theorem addCompletes : Obligations.AddCompletes :=
  ⟨fun dr sr1 sr2 s => completes_of_writeDest (exec_addReg dr sr1 sr2 s),
    fun dr sr1 imm s => completes_of_writeDest (exec_addImm dr sr1 imm s)⟩

/-- Settles O12: both forms write the conjunction to the destination. -/
theorem andCompletes : Obligations.AndCompletes :=
  ⟨fun dr sr1 sr2 s => completes_of_writeDest (exec_andReg dr sr1 sr2 s),
    fun dr sr1 imm s => completes_of_writeDest (exec_andImm dr sr1 imm s)⟩

/-- Settles O13: NOT writes the complement to the destination, and `BitVec.toNat_not` reads it as a difference (R85). -/
theorem notCompletes : Obligations.NotCompletes := by
  intro dr sr s
  obtain ⟨t, ht, hreg, hframe⟩ := completes_of_writeDest (exec_notReg dr sr s)
  have hdiff : (t.reg dr).toNat = 65535 - (s.reg sr).toNat := by rw [hreg, BitVec.toNat_not]
  exact ⟨t, ht, hreg, hdiff, hframe⟩

end Sys2Proof.Machine
end

section
/-! PROOF. The data movement instructions: each load writes the word its last read answers, LEA the address itself, and each
store one word of memory (42_data_movement.md R96 to R103). -/

namespace Sys2Proof.Machine

/-! ## What each instruction answers -/

theorem exec_ld (dr : RegIdx) (off : Word) (s : State) : exec (.ld dr off) s = loadInto dr (s.pc + off) s := rfl

theorem exec_ldr (dr base : RegIdx) (off : Word) (s : State) :
    exec (.ldr dr base off) s = loadInto dr (s.reg base + off) s := rfl

theorem exec_ldi_of_read {dr : RegIdx} {off ptr : Word} {s s' : State} (h : memRead (s.pc + off) s = .ok (ptr, s')) :
    exec (.ldi dr off) s = loadInto dr ptr s' := execLdi_of_read h

theorem exec_lea (dr : RegIdx) (off : Word) (s : State) : exec (.lea dr off) s = .next (s.writeDest dr (s.pc + off)) := rfl

theorem exec_st (sr : RegIdx) (off : Word) (s : State) :
    exec (.st sr off) s = .next (memWrite (s.pc + off) (s.reg sr) s) := rfl

theorem exec_str (sr base : RegIdx) (off : Word) (s : State) :
    exec (.str sr base off) s = .next (memWrite (s.reg base + off) (s.reg sr) s) := rfl

theorem exec_sti_of_read {sr : RegIdx} {off ptr : Word} {s s' : State} (h : memRead (s.pc + off) s = .ok (ptr, s')) :
    exec (.sti sr off) s = .next (memWrite ptr (s.reg sr) s') := by
  rw [exec, execSti, pcRelative, h, onRead]

/-! ## Loads and stores after reads that moved the input channel on -/

/-- An instruction that comes to `v <- MemRead(ea, 1); x[DR] <- v; setcc(v)` with the input channel at `ch` changes the
destination, the condition and the input channel alone. `ch` is `s.input` where no read went before. -/
theorem completes_of_loadInto {i : Instr} {dr : RegIdx} {ea v : Word} {s s' : State} {ch : InputChannel}
    (hi : exec i s = loadInto dr ea { s with input := ch }) (h : memRead ea { s with input := ch } = .ok (v, s')) :
    ∃ t, exec i s = .next t ∧ t.reg dr = v ∧ t.cc = condOf v
      ∧ sameRegsBut dr s t ∧ t.pc = s.pc ∧ sameMemory s t ∧ sameEngine s t ∧ t.input = s'.input ∧ t.output = s.output := by
  have ht : exec i s = .next (s'.writeDest dr v) := hi.trans (loadInto_of_read h)
  obtain ⟨ch', rfl, -⟩ := memRead_ok h
  exact ⟨_, ht, State.reg_writeDest_self _ dr v, State.writeDest_cc _ dr v, sameRegsBut_writeDest _ dr v,
    State.writeDest_pc _ dr v, fun _ _ => rfl, ⟨rfl, rfl, rfl, rfl, rfl⟩, rfl, rfl⟩

theorem sameMemoryBut_memWrite (addr v : Word) (s : State) : sameMemoryBut addr s (memWrite addr v s) := by
  intro k _ hhi hlo
  rw [memWrite_mem, Memory.readByte_writeWord, if_neg hhi, if_neg hlo]

/-- An instruction that ends by `MemWrite(addr, 1, v)` with the input channel at `ch` changes the word at `addr` and the input
channel alone. `ch` is `s.input` where no read went before. -/
theorem completes_of_memWrite {i : Instr} {addr v : Word} {s : State} {ch : InputChannel}
    (h : exec i s = .next (memWrite addr v { s with input := ch })) :
    ∃ t, exec i s = .next t ∧ (¬ s.cfg.isDevice addr → t.mem.readWord addr = v) ∧ sameMemoryBut addr s t
      ∧ sameRegs s t ∧ t.cc = s.cc ∧ t.pc = s.pc ∧ sameEngine s t ∧ t.input = ch ∧ t.output = s.output :=
  ⟨_, h, fun _ => Memory.readWord_writeWord_self s.mem addr v, sameMemoryBut_memWrite addr v _, fun _ => rfl, rfl, rfl,
    ⟨rfl, rfl, rfl, rfl, rfl⟩, rfl, rfl⟩

/-! ## The seven instructions -/

/-- Settles O14: LD loads from its PC-relative address. -/
theorem ldCompletes : Obligations.LdCompletes :=
  fun dr off _ s _ h => completes_of_loadInto (exec_ld dr off s) h

/-- Settles O15: the pointer read only moves the input channel on, and LDI then loads through the pointer. -/
theorem ldiCompletes : Obligations.LdiCompletes := by
  intro dr off ptr v s s' s'' hptr hdata
  have hi : exec (.ldi dr off) s = loadInto dr ptr s' := exec_ldi_of_read hptr
  obtain ⟨ch, rfl, -⟩ := memRead_ok hptr
  exact completes_of_loadInto hi hdata

/-- Settles O16: LDR loads from base plus offset, the base read before the destination is written. -/
theorem ldrCompletes : Obligations.LdrCompletes :=
  fun dr base off _ s _ h => completes_of_loadInto (exec_ldr dr base off s) h

/-- Settles O17: LEA writes the address to the destination and makes no read. -/
theorem leaCompletes : Obligations.LeaCompletes :=
  fun dr off s => completes_of_writeDest (exec_lea dr off s)

/-- Settles O18: ST writes SR at its PC-relative address. -/
theorem stCompletes : Obligations.StCompletes :=
  fun sr off s => completes_of_memWrite (exec_st sr off s)

/-- Settles O19: the pointer read only moves the input channel on, and STI then writes SR at the pointer. -/
theorem stiCompletes : Obligations.StiCompletes := by
  intro sr off ptr s s' hptr
  have hi : exec (.sti sr off) s = .next (memWrite ptr (s.reg sr) s') := exec_sti_of_read hptr
  obtain ⟨ch, rfl, -⟩ := memRead_ok hptr
  exact completes_of_memWrite hi

/-- Settles O20: STR writes SR at base plus offset. -/
theorem strCompletes : Obligations.StrCompletes :=
  fun sr base off s => completes_of_memWrite (exec_str sr base off s)

end Sys2Proof.Machine
end

section
/-! PROOF. The control transfers: BR and JMP write the pc alone, JSR and JSRR the pc and the link in R7 (43_control_flow.md R110 to
R114). -/

namespace Sys2Proof.Machine

/-! ## What each instruction answers -/

theorem exec_br (n z p : Bool) (off : Word) (s : State) :
    exec (.br n z p off) s = .next (s.setPc (if taken n z p s.cc then s.pc + off else s.pc)) := execBr_eq n z p off s

theorem exec_jmp (base : RegIdx) (s : State) : exec (.jmp base) s = .next (s.setPc (s.reg base)) := rfl

theorem exec_jsr (off : Word) (s : State) : exec (.jsr off) s = .next ((s.setReg 7 s.pc).setPc (s.pc + off)) := rfl

/-- The two orders of R113 in one answer: the target is the link only for base 7 read after it. -/
theorem exec_jsrr (base : RegIdx) (s : State) :
    exec (.jsrr base) s = .next ((s.setReg 7 s.pc).setPc
      (if base = 7 ∧ s.cfg.jsrrBaseRead = .afterLink then s.pc else s.reg base)) := by
  have ht := execJsrr_eq base s
  rw [← pc_of_execJsrr ht]
  exact ht

/-! ## The write to the pc, without and with the link -/

/-- An instruction that ends by writing `v` to the pc changes the pc alone. -/
theorem completes_of_setPc {i : Instr} {s : State} {v : Word} (h : exec i s = .next (s.setPc v)) :
    ∃ t, exec i s = .next t ∧ t.pc = v ∧ t.cc = s.cc ∧ sameRegs s t ∧ sameMemory s t ∧ sameEngine s t ∧ sameChannels s t :=
  ⟨_, h, rfl, rfl, fun _ => rfl, fun _ _ => rfl, ⟨rfl, rfl, rfl, rfl, rfl⟩, rfl, rfl⟩

/-- An instruction that ends by linking in R7 and writing `v` to the pc changes R7 and the pc alone. -/
theorem completes_of_link {i : Instr} {s : State} {v : Word} (h : exec i s = .next ((s.setReg 7 s.pc).setPc v)) :
    ∃ t, exec i s = .next t ∧ t.reg 7 = s.pc ∧ t.pc = v
      ∧ sameRegsBut 7 s t ∧ t.cc = s.cc ∧ sameMemory s t ∧ sameEngine s t ∧ sameChannels s t :=
  ⟨_, h, State.reg_setReg_self s 7 s.pc, rfl, sameRegsBut_setReg s 7 s.pc, rfl, fun _ _ => rfl,
    ⟨rfl, rfl, rfl, rfl, rfl⟩, rfl, rfl⟩

/-! ## The four instructions -/

/-- Settles O22: BR writes the pc, with the target where a requested condition holds and with the pc itself elsewhere. -/
theorem brCompletes : Obligations.BrCompletes := by
  intro n z p off s
  rw [← taken_iff n z p s.cc]
  obtain ⟨t, ht, hpc, hframe⟩ := completes_of_setPc (exec_br n z p off s)
  exact ⟨t, ht, fun h => hpc.trans (if_pos h), fun h => hpc.trans (if_neg h), hframe⟩

/-- Settles O23: JMP writes its base register to the pc. -/
theorem jmpCompletes : Obligations.JmpCompletes :=
  fun base s => completes_of_setPc (exec_jmp base s)

/-- Settles O24: JSR links and writes its PC-relative target to the pc. -/
theorem jsrCompletes : Obligations.JsrCompletes :=
  fun off s => completes_of_link (exec_jsr off s)

/-- Settles O25: JSRR links and writes its base register to the pc, or the link for base 7 read after it. -/
theorem jsrrCompletes : Obligations.JsrrCompletes := by
  intro base s
  obtain ⟨t, ht, hlink, hpc, hframe⟩ := completes_of_link (exec_jsrr base s)
  refine ⟨t, ht, hlink, fun hb => ?_, fun hb hbefore => ?_, fun hb hafter => ?_, hframe⟩
  · exact hpc.trans (if_neg fun h => hb h.1)
  · rw [hpc, if_neg (by simp [hbefore]), hb]
  · exact hpc.trans (if_pos ⟨hb, hafter⟩)

end Sys2Proof.Machine
end

section
/-! PROOF. TRAP and the two Illegal opcodes: what the dispatcher leaves and what TRAP adds to it, the clean halt and the fatal one
(44_trap_and_illegal.md R120 to R122; 60_exceptions.md R138, R144). -/

namespace Sys2Proof.Machine

/-! ## TRAP -/

/-- TRAP adds to what its dispatcher leaves (R138) an end of the run alone: HALT writes the run state, an unknown vector the
diagnostic too. -/
theorem execTrap_frame {vec : Byte} {s t : State} (h : execTrap vec s = .next t) :
    ∃ s' run diagnostic, Served vec s s' ∧ t = { s' with run := run, diagnostic := diagnostic }
      ∧ (vec ≠ 0x25 → knownVector vec → run = s.run) ∧ (knownVector vec → diagnostic = s.diagnostic) := by
  obtain ⟨s', hs, ⟨-, -, rfl⟩ | ⟨hv, rfl⟩ | ⟨hk, rfl, rfl⟩⟩ := execTrap_next h
  · exact ⟨t, t.run, t.diagnostic, hs, rfl, fun _ _ => hs.run, fun _ => hs.diagnostic⟩
  · exact ⟨s', .halted, s'.diagnostic, hs, rfl, fun hne => absurd hv hne, fun _ => hs.diagnostic⟩
  · exact ⟨_, .halted, _, hs, rfl, fun _ hk' => absurd hk' hk, fun hk' => absurd hk' hk⟩

/-- Settles O33, from what the dispatcher leaves and the end of the run that TRAP adds to it. -/
theorem trapChangesOnlyR0AndChannels : Obligations.TrapChangesOnlyR0AndChannels := by
  intro vec s t h
  obtain ⟨s', run, diagnostic, hs, rfl, hrun, hdiagnostic⟩ := execTrap_frame h
  have hmem : sameMemory s s' := fun k _ => congrArg (Memory.readByte · k) hs.mem
  exact ⟨hs.pc, hs.cc, hmem, fun r hr => hs.regs r (.inl hr), fun hgetc hin => hs.regs 0 (.inr ⟨hgetc, hin⟩),
    hs.cfg, hs.fetchAddr, hs.fetchWord, hrun, hdiagnostic⟩

/-- HALT puts the notice and halts (R144). -/
theorem exec_halt (s : State) : exec (.trap 0x25) s = .next (haltCleanly (s.put s.cfg.haltNotice)) := rfl

/-- Settles O31: neither the notice nor the halt writes any other field. -/
theorem haltEndsTheRunCleanly : Obligations.HaltEndsTheRunCleanly :=
  fun s => ⟨_, exec_halt s, haltCleanly_run _, rfl, haltCleanly_diagnostic _, rfl, fun _ => rfl, rfl, rfl, fun _ _ => rfl,
    rfl, rfl, rfl⟩

/-! ## The Illegal opcodes -/

theorem exec_rti (raw : Word) (s : State) : exec (.rti raw) s = .next (raiseFatal .illegalInstruction s) := rfl

theorem exec_reserved (raw : Word) (s : State) : exec (.reserved raw) s = .next (raiseFatal .illegalInstruction s) := rfl

/-- An instruction that ends by raising an exception leaves the machine Halted with its record, and nothing else changed
(60_exceptions.md R133). -/
theorem completes_of_raiseFatal {i : Instr} {s : State} {reason : FatalReason} (h : exec i s = .next (raiseFatal reason s)) :
    ∃ t, exec i s = .next t ∧ Alike { s with
      run := .halted, diagnostic := some ⟨s.fetchAddr, s.fetchWord, reason⟩ } t :=
  ⟨_, h, Alike.refl _⟩

/-- Settles O35: both Illegal opcodes raise IllegalInstruction. -/
theorem illegalOpcodesHaltFatally : Obligations.IllegalOpcodesHaltFatally :=
  fun raw s => ⟨completes_of_raiseFatal (exec_rti raw s), completes_of_raiseFatal (exec_reserved raw s)⟩

end Sys2Proof.Machine
end

section
/-! PROOF. The bound on the words PUTS and PUTSP read is no limit: a scan that ends at all ends within it (60_exceptions.md R141,
R143; 93_implementation_defined.md U13). -/

namespace Sys2Proof.Machine

/-! ## A scan word by word -/

section
variable {word : Word → List Byte × Bool} {n m : Nat} {p : Word} {s : State}

/-- No answer of a read depends on what has been put: it gives the same word and the same input, or it stops. -/
theorem memRead_withOutput (p : Word) (s : State) :
    (∃ w ch, MovedOn s.input ch
      ∧ ∀ out, memRead p { s with output := out } = .ok (w, { s with input := ch, output := out }))
    ∨ ∀ out, ∃ f, memRead p { s with output := out } = .error f := by
  by_cases hsr : p = s.cfg.kbsrAddr
  · refine .inl ⟨(kbsrRead s).1, s.input.afterPoll, afterPoll_movedOn s.input, fun out => ?_⟩
    subst hsr
    exact memRead_kbsr { s with output := out }
  · by_cases hdr : p = s.cfg.kbdrAddr
    · have hread (out : List Byte) : memRead p { s with output := out } = kbdrRead { s with output := out } := by
        rw [memRead, if_neg hsr, if_pos hdr]
      simp only [hread]
      cases hc : nextChar s.input.script with
      | some r =>
        exact .inl ⟨zext8 r.1, { s.input with script := r.2 }, ⟨nextChar_suffix hc, rfl⟩,
          fun out => kbdrRead_of_char (s := { s with output := out }) hc⟩
      | none =>
        cases he : s.input.ending with
        | exhausted => exact .inr fun out => ⟨_, kbdrRead_of_exhausted (s := { s with output := out }) hc he⟩
        | openEnded => exact .inr fun out => ⟨_, kbdrRead_of_openEnded (s := { s with output := out }) hc he⟩
    · exact .inl ⟨s.mem.readWord p, s.input, MovedOn.refl _,
        fun out => memRead_plain (s := { s with output := out }) (not_or.2 ⟨hsr, hdr⟩)⟩

/-- The scan comes to an answer within `n` words: it does not use up the words it may read. -/
def ScanEnds (word : Word → List Byte × Bool) (n : Nat) (p : Word) (s : State) : Prop :=
  ∀ left, scanString word n p s ≠ .error (.endlessService left)

theorem not_scanEnds_zero : ¬ ScanEnds word 0 p s := fun h => h _ rfl

theorem scanEnds_congr {q : Word} {t : State} (h : scanString word n p s = scanString word m q t) :
    ScanEnds word n p s ↔ ScanEnds word m q t := by
  unfold ScanEnds
  rw [h]

/-- All the first word of a scan can do, whatever has been put: answer for good, or put bytes and go on. -/
theorem scanString_firstWord (word : Word → List Byte × Bool) (p : Word) (s : State) :
    (∀ out, ∃ r, (∀ left, r ≠ .error (.endlessService left))
      ∧ ∀ n, scanString word (n + 1) p { s with output := out } = r)
    ∨ ∃ ch bs, MovedOn s.input ch ∧ ∀ out n, scanString word (n + 1) p { s with output := out }
        = scanString word n (p + 1#16) { s with input := ch, output := out ++ bs } := by
  obtain ⟨w, ch, hm, hr⟩ | hr := memRead_withOutput p s
  · by_cases hw : (word w).2 = true
    · exact .inl fun out => ⟨.ok (({ s with input := ch, output := out } : State).put (word w).1), nofun,
        fun n => (scanString_of_read (hr out)).trans (if_pos hw)⟩
    · exact .inr ⟨ch, (word w).1, hm, fun out n => by rw [scanString_of_read (hr out), if_neg hw]; rfl⟩
  · refine .inl fun out => ?_
    obtain ⟨f, hf⟩ := hr out
    refine ⟨.error f, fun left he => ?_, fun n => scanString_of_read_error hf⟩
    cases he
    cases waitOn_of_memRead hf

/-- A scan that has come to an answer does not read on, however many more words it may. -/
theorem ScanEnds.scanString_eq (h : ScanEnds word n p s) (hnm : n ≤ m) :
    scanString word m p s = scanString word n p s := by
  induction n generalizing m p s with
  | zero => exact absurd h not_scanEnds_zero
  | succ n ih =>
    obtain ⟨m, rfl⟩ := Nat.exists_eq_add_of_le' hnm
    obtain hend | ⟨ch, bs, -, hgo⟩ := scanString_firstWord word p s
    · obtain ⟨r, -, hr⟩ := hend s.output
      exact (hr (m + n)).trans (hr n).symm
    · rw [scanEnds_congr (hgo s.output n)] at h
      exact (hgo s.output (m + n)).trans ((ih h (by omega)).trans (hgo s.output n).symm)

theorem ScanEnds.mono (h : ScanEnds word n p s) (hnm : n ≤ m) : ScanEnds word m p s :=
  (scanEnds_congr (h.scanString_eq hnm)).2 h

/-- What has been put before a scan does not matter to whether it ends. -/
theorem ScanEnds.withOutput (h : ScanEnds word n p s) (out : List Byte) : ScanEnds word n p { s with output := out } := by
  induction n generalizing p s out with
  | zero => exact absurd h not_scanEnds_zero
  | succ n ih =>
    obtain hend | ⟨ch, bs, -, hgo⟩ := scanString_firstWord word p s
    · obtain ⟨r, hne, hr⟩ := hend out
      exact fun left => (hr n).symm ▸ hne left
    · rw [scanEnds_congr (hgo s.output n)] at h
      exact (scanEnds_congr (hgo out n)).2 (ih h (out ++ bs))

/-- The address after `k + 1` words is the address `k` words after the next one (D15: addresses wrap). -/
theorem add_ofNat_succ (p : Word) (k : Nat) : p + BitVec.ofNat 16 (k + 1) = p + 1#16 + BitVec.ofNat 16 k := by
  rw [BitVec.ofNat_add, BitVec.add_comm (BitVec.ofNat 16 k), BitVec.add_assoc]

/-- A scan that `m` words do not end goes on at the word after them. -/
theorem scanString_goesOn (h : ¬ ScanEnds word m p s) :
    ∃ ch bs, MovedOn s.input ch ∧ ∀ n, scanString word (m + n) p s
      = scanString word n (p + BitVec.ofNat 16 m) { s with input := ch, output := s.output ++ bs } := by
  induction m generalizing p s with
  | zero => exact ⟨s.input, [], MovedOn.refl _, fun n => by simp⟩
  | succ m ih =>
    obtain hend | ⟨ch, bs, hm, hgo⟩ := scanString_firstWord word p s
    · obtain ⟨r, hne, hr⟩ := hend s.output
      exact absurd (fun left => (hr m).symm ▸ hne left) h
    · rw [scanEnds_congr (hgo s.output m)] at h
      obtain ⟨ch', bs', hm', hgo'⟩ := ih h
      refine ⟨ch', bs ++ bs', hm.trans hm', fun n => ?_⟩
      rw [add_ofNat_succ, ← List.append_assoc, Nat.add_right_comm]
      exact (hgo s.output (m + n)).trans (hgo' n)

/-! ## The bound of a scan -/

/-- A channel that has moved on and is no shorter has not moved. -/
theorem MovedOn.eq_of_length_le {ch ch' : InputChannel} (h : MovedOn ch ch') (hl : ch.script.length ≤ ch'.script.length) :
    ch' = ch := by
  obtain ⟨script, ending⟩ := ch
  obtain ⟨script', ending'⟩ := ch'
  obtain ⟨hs, he⟩ := h
  cases he
  cases hs.eq_of_length_le hl
  rfl

/-- The bound gives one round of memory at least. -/
theorem le_scanBound (s : State) : 65536 ≤ scanBound s := by
  unfold scanBound
  omega

/-- The bound gives one round of memory for each event of the script. -/
theorem add_scanBound_le {s t : State} (h : t.input.script.length < s.input.script.length) :
    65536 + scanBound t ≤ scanBound s := by
  unfold scanBound
  omega

/-- Memory has 65536 words, so a scan that goes round it is back at its address. Either the round took no event of the script,
and what comes after it is what the scan does without it; or it took one, and there is one event fewer for the rounds to come.
So a scan that ends at all does so within one round for each event and one more. -/
theorem ScanEnds.scanBound (h : ScanEnds word n p s) : ScanEnds word (scanBound s) p s := by
  induction n using Nat.strong_induction_on generalizing s with
  | _ n ih =>
    by_cases hfirst : ScanEnds word 65536 p s
    · exact hfirst.mono (le_scanBound s)
    · obtain ⟨ch, bs, hm, hgo⟩ := scanString_goesOn hfirst
      obtain ⟨k, rfl⟩ : ∃ k, n = 65536 + k :=
        Nat.exists_eq_add_of_le (Nat.le_of_not_le fun hn => hfirst (h.mono hn))
      have hback : p + BitVec.ofNat 16 65536 = p := BitVec.add_zero p
      rw [hback] at hgo
      have hrest := ih k (by omega) ((scanEnds_congr (hgo k)).1 h)
      by_cases hidle : s.input.script.length ≤ ch.script.length
      · cases hm.eq_of_length_le hidle
        exact hrest.withOutput s.output
      · exact ((scanEnds_congr (hgo _)).2 hrest).mono (add_scanBound_le (Nat.lt_of_not_le hidle))

/-- The bound is no limit: where a scan of any number of words comes to an answer, the bounded one comes to the same. -/
theorem scanString_scanBound (h : ScanEnds word n p s) :
    scanString word (scanBound s) p s = scanString word n p s := by
  obtain hle | hle := Nat.le_total n (scanBound s)
  · exact h.scanString_eq hle
  · exact (h.scanBound.scanString_eq hle).symm

theorem ofService_scanBound_of_ok {t : State} (h : scanString word n p s = .ok t) :
    ofService (scanString word (scanBound s) p s) = .next t := by
  have hends : ScanEnds word n p s := fun left he => nomatch h.symm.trans he
  rw [scanString_scanBound hends, h, ofService]

theorem ofService_scanBound_of_error {f : Fault} (hf : ∀ left, f ≠ .endlessService left)
    (h : scanString word n p s = .error f) : ofService (scanString word (scanBound s) p s) = .fault f := by
  have hends : ScanEnds word n p s := fun left he => hf left (Except.error.inj (h.symm.trans he))
  rw [scanString_scanBound hends, h, ofService]

end

/-! ## The two services -/

theorem exec_puts (s : State) : exec (.trap 0x22) s = ofService (scanString putsWord (scanBound s) (s.reg 0) s) :=
  execTrap_of_service rfl

theorem exec_putsp (s : State) : exec (.trap 0x24) s = ofService (scanString putspWord (scanBound s) (s.reg 0) s) :=
  execTrap_of_service rfl

theorem exec_puts_of_scan {n : Nat} {s t : State} (h : scanString putsWord n (s.reg 0) s = .ok t) :
    exec (.trap 0x22) s = .next t := (exec_puts s).trans (ofService_scanBound_of_ok h)

theorem exec_putsp_of_scan {n : Nat} {s t : State} (h : scanString putspWord n (s.reg 0) s = .ok t) :
    exec (.trap 0x24) s = .next t := (exec_putsp s).trans (ofService_scanBound_of_ok h)

/-- Settles O34: both traps answer as their scan with the model's bound, which answers as any scan that comes to an answer. -/
theorem scanBoundIsNoLimit : Obligations.ScanBoundIsNoLimit :=
  ⟨fun _ _ _ h => exec_puts_of_scan h, fun _ s _ hf h => (exec_puts s).trans (ofService_scanBound_of_error hf h),
    fun _ _ _ h => exec_putsp_of_scan h, fun _ s _ hf h => (exec_putsp s).trans (ofService_scanBound_of_error hf h)⟩

end Sys2Proof.Machine
end

section
/-! PROOF. OUT, PUTS and PUTSP put their bytes and change nothing else (60_exceptions.md R140, R141, R143; D15). -/

namespace Sys2Proof.Machine

/-! ## The words of a string -/

theorem putsWord_of_ne_zero {w : Word} (h : w ≠ 0#16) : putsWord w = ([lowByte w], false) := if_neg h

theorem putsWord_zero : putsWord 0#16 = ([], true) := rfl

theorem putspWord_of_full {w : Word} (hlo : lowByte w ≠ 0#8) (hhi : highByte w ≠ 0#8) :
    putspWord w = ([lowByte w, highByte w], false) := by
  rw [putspWord, if_neg hlo, if_neg hhi]

/-- A zero byte ends the string, after the low byte if it is the high one (R143). -/
theorem putspWord_of_zero_byte {w : Word} (h : lowByte w = 0#8 ∨ highByte w = 0#8) :
    putspWord w = (if lowByte w = 0#8 then [] else [lowByte w], true) := by
  unfold putspWord
  split
  · rfl
  · rename_i hlo
    rw [if_pos (h.resolve_left hlo)]

/-! ## The scan of a string in plain memory -/

section
variable {word : Word → List Byte × Bool} {put : Word → List Byte} {ws : List Word} {p : Word} {s : State}

theorem put_nil (s : State) : s.put [] = s := by
  unfold State.put
  rw [List.append_nil]

theorem put_put (s : State) (bs bs' : List Byte) : (s.put bs).put bs' = s.put (bs ++ bs') := by
  unfold State.put
  rw [List.append_assoc]

/-- `ws` stand at `p` on (D15: the addresses wrap), none at an address the keyboard answers, and the service puts `put w` for each
of them and goes on. -/
def PlainWords (word : Word → List Byte × Bool) (put : Word → List Byte) (s : State) (p : Word) (ws : List Word) : Prop :=
  ∀ k (h : k < ws.length), ¬ s.cfg.isDevice (p + BitVec.ofNat 16 k)
    ∧ s.mem.readWord (p + BitVec.ofNat 16 k) = ws[k] ∧ word ws[k] = (put ws[k], false)

theorem PlainWords.head {w : Word} (h : PlainWords word put s p (w :: ws)) :
    ¬ s.cfg.isDevice p ∧ s.mem.readWord p = w ∧ word w = (put w, false) := by
  have hp := h 0 (Nat.zero_lt_succ _)
  rwa [show p + BitVec.ofNat 16 0 = p from BitVec.add_zero p] at hp

theorem PlainWords.tail {w : Word} (h : PlainWords word put s p (w :: ws)) (bs : List Byte) :
    PlainWords word put (s.put bs) (p + 1#16) ws := fun k hk => by
  have hp := h (k + 1) (Nat.succ_lt_succ hk)
  rwa [add_ofNat_succ] at hp

/-- A scan of such words puts the bytes of each and goes on at the address after them. -/
theorem scanString_plainWords (hws : PlainWords word put s p ws) (n : Nat) :
    scanString word (ws.length + n) p s
      = scanString word n (p + BitVec.ofNat 16 ws.length) (s.put (ws.flatMap put)) := by
  induction ws generalizing p s with
  | nil => simp [put_nil]
  | cons w ws ih =>
    obtain ⟨hdev, hread, hw⟩ := hws.head
    rw [List.length_cons, Nat.add_right_comm, scanString_plain hdev, hread, hw, if_neg Bool.false_ne_true, ih (hws.tail _),
      put_put, List.flatMap_cons, ← add_ofNat_succ]

/-- A scan of a string in plain memory puts the bytes of its words and those of the word that ends it, and nothing else. -/
theorem scanString_string {bs : List Byte} (hws : PlainWords word put s p ws)
    (hdev : ¬ s.cfg.isDevice (p + BitVec.ofNat 16 ws.length))
    (hend : word (s.mem.readWord (p + BitVec.ofNat 16 ws.length)) = (bs, true)) :
    scanString word (ws.length + 1) p s = .ok (s.put (ws.flatMap put ++ bs)) := by
  have hplain : ¬ (s.put (ws.flatMap put)).cfg.isDevice (p + BitVec.ofNat 16 ws.length) := hdev
  rw [scanString_plainWords hws, scanString_plain hplain, State.put_mem, hend, if_pos rfl, put_put]

end

/-! ## The three services -/

/-- An instruction that ends by putting `bs` changes the output alone. -/
theorem completes_of_put {i : Instr} {s : State} {bs : List Byte} (h : exec i s = .next (s.put bs)) :
    ∃ t, exec i s = .next t ∧ t.output = s.output ++ bs
      ∧ t.input = s.input ∧ sameRegs s t ∧ t.cc = s.cc ∧ t.pc = s.pc ∧ sameMemory s t ∧ sameEngine s t :=
  ⟨_, h, rfl, rfl, fun _ => rfl, rfl, rfl, fun _ _ => rfl, rfl, rfl, rfl, rfl, rfl⟩

theorem exec_out (s : State) : exec (.trap 0x21) s = .next (s.put [lowByte (s.reg 0)]) := rfl

/-- Settles O27: OUT puts one byte. -/
theorem outCompletes : Obligations.OutCompletes := fun s => completes_of_put (exec_out s)

/-- Settles O28: the scan puts the low byte of each word, and nothing for the zero word. -/
theorem putsWritesTheString : Obligations.PutsWritesTheString := by
  intro s ws _ hws hdev hzero
  have hscan : scanString putsWord (ws.length + 1) (s.reg 0) s = .ok (s.put (ws.flatMap (fun w => [lowByte w]) ++ [])) :=
    scanString_string (fun k hk => (hws k hk).imp_right (.imp_right putsWord_of_ne_zero)) hdev (hzero ▸ putsWord_zero)
  rw [List.append_nil, ← List.map_eq_flatMap] at hscan
  exact completes_of_put (exec_puts_of_scan hscan)

/-- Settles O30: the scan puts both bytes of each full word, and the low byte of the last word if it is not zero. -/
theorem putspWritesTheString : Obligations.PutspWritesTheString := by
  intro s ws last _ hws hdev hlast hzero
  have hscan : scanString putspWord (ws.length + 1) (s.reg 0) s = .ok (s.put
      (ws.flatMap (fun w => [lowByte w, highByte w]) ++ if lowByte last = 0#8 then [] else [lowByte last])) :=
    scanString_string (fun k hk => (hws k hk).imp_right (.imp_right fun h => putspWord_of_full h.1 h.2)) hdev
      (hlast ▸ putspWord_of_zero_byte (hlast ▸ hzero))
  rw [List.append_assoc]
  exact completes_of_put (exec_putsp_of_scan hscan)

end Sys2Proof.Machine
end

section
/-! PROOF. The character read, and the two exceptions: a step raises each when and only when the word it fetched says so
(60_exceptions.md R131, R132, R145, R146). -/

namespace Sys2Proof.Machine

/-! ## The character read -/

/-- Settles O52, one clause for each condition of the channel. -/
theorem characterReadAnswersSentinel : Obligations.CharacterReadAnswersSentinel :=
  ⟨fun _ _ _ hc => ⟨_, readChar_of_char hc, Alike.refl _⟩,
    fun _ hn he => ⟨⟨_, readChar_of_exhausted hn he, Alike.refl _⟩, _, kbdrRead_of_exhausted hn he⟩,
    fun _ hn he => readChar_of_openEnded hn he⟩

/-! ## Unknown vectors -/

theorem not_knownVector_iff (vec : Byte) : ¬ knownVector vec ↔ vec.toNat < 0x20 ∨ 0x25 < vec.toNat := by
  rw [knownVector, BitVec.le_def, BitVec.le_def, not_and_or, not_le, not_le]
  rfl

/-- Settles O32: the dispatcher answers any other vector as unknown, and TRAP raises the exception. -/
theorem unknownVectorIsFatal : Obligations.UnknownVectorIsFatal := fun vec s hv =>
  completes_of_raiseFatal (execTrap_of_not_known ((not_knownVector_iff vec).2 hv) s)

/-! ## The exceptions of a step -/

/-- A diagnostic where there was none is the record of an exception the instruction raised (R133). -/
theorem EngineMove.raised {i : Instr} {s t : State} (h : EngineMove i s t) (hn : s.diagnostic = none) {d : Diagnostic}
    (hd : t.diagnostic = some d) :
    (d.reason = .illegalInstruction ∧ ∃ raw, i = .rti raw ∨ i = .reserved raw)
    ∨ ∃ vec, d.reason = .unknownTrapVector vec ∧ i = .trap vec ∧ ¬ knownVector vec := by
  cases h with
  | goesOn _ hs => cases (hs.diagnostic.trans hn).symm.trans hd
  | haltsCleanly _ hs => cases (hs.diagnostic.trans hn).symm.trans hd
  | unknownVector hi hk =>
    cases hd
    exact .inr ⟨_, rfl, hi, hk⟩
  | illegal hi =>
    cases hd
    exact .inl ⟨rfl, hi⟩

section
variable {s s' t : State} {w : Word} (hr : s.run = .running) (hf : fetch s = .ok (w, s'))
include hr hf

/-- A step whose word raises an exception leaves the record of its fetch, the run Halted, the registers and memory as they were,
the input as the fetch left it and the output untouched (R71, R133). -/
theorem step_raises {reason : FatalReason} (he : exec (decodeWord w) s' = .next (raiseFatal reason s')) :
    ∃ t, step s = .next t ∧ t.diagnostic = some ⟨s.pc, w, reason⟩ ∧ t.run = .halted
      ∧ sameRegs s t ∧ sameMemory s t ∧ t.input = s'.input ∧ t.output = s.output := by
  have hstep := (step_of_fetch hr hf).trans he
  obtain ⟨ch, -, -, rfl⟩ := fetch_ok hf
  exact ⟨_, hstep, rfl, rfl, fun _ => rfl, fun _ _ => rfl, rfl, rfl⟩

/-- The exception behind the diagnostic a step leaves is one the word it fetched gives rise to (R131, R132). -/
theorem raised_of_step (hn : s.diagnostic = none) (h : step s = .next t) {d : Diagnostic} (hd : t.diagnostic = some d) :
    (d.reason = .illegalInstruction ∧ ∃ raw, decodeWord w = .rti raw ∨ decodeWord w = .reserved raw)
    ∨ ∃ vec, d.reason = .unknownTrapVector vec ∧ decodeWord w = .trap vec ∧ ¬ knownVector vec := by
  have hexec := (step_of_fetch hr hf).symm.trans h
  obtain ⟨ch, -, -, rfl⟩ := fetch_ok hf
  exact (exec_engineMove hexec).raised hn hd

end

/-- Settles O36: the Illegal words are those of the two opcodes, and nothing else raises IllegalInstruction. -/
theorem illegalInstructionWhenAndOnlyWhen : Obligations.IllegalInstructionWhenAndOnlyWhen := by
  intro s s' w hr hn hf
  refine ⟨fun hw => ?_, fun t a x h hd => ?_⟩
  · have he : exec (decodeWord w) s' = .next (raiseFatal .illegalInstruction s') := by
      obtain ⟨raw, hi | hi⟩ := (decodesToIllegal_iff w).2 hw
      · rw [hi, exec_rti]
      · rw [hi, exec_reserved]
    obtain ⟨t, ht, hdiagnostic, hhalted, -⟩ := step_raises hr hf he
    exact ⟨t, ht, hdiagnostic, hhalted⟩
  · obtain ⟨-, hi⟩ | ⟨vec, hreason, -⟩ := raised_of_step hr hf hn h hd
    · exact (decodesToIllegal_iff w).1 hi
    · cases hreason

/-- Settles O37: the dispatcher changes nothing for an unknown vector, and nothing else raises UnknownTrapVector. -/
theorem unknownTrapVectorWhenAndOnlyWhen : Obligations.UnknownTrapVectorWhenAndOnlyWhen := by
  intro s s' w hr hn hf
  refine ⟨fun vec hi hv => ⟨vector_of_decodeWord hi, step_raises hr hf ?_⟩, fun t a x vec h hd => ?_⟩
  · rw [hi]
    exact execTrap_of_not_known ((not_knownVector_iff vec).2 hv) s'
  · obtain ⟨hreason, -⟩ | ⟨vec', hreason, hi, hk⟩ := raised_of_step hr hf hn h hd
    · cases hreason
    · cases hreason
      exact ⟨hi, (not_knownVector_iff vec).1 hk⟩

end Sys2Proof.Machine
end

section
/-! PROOF. The word 0x0000: a branch that requests no condition, so the step at it is its fetch alone
(70_reset_and_hazards.md R169; D2). -/

namespace Sys2Proof.Machine

theorem decodeWord_zero : decodeWord 0#16 = .br false false false 0#16 := by decide

/-- A branch that requests no condition is taken in none. -/
theorem taken_no_condition (cc : Cond) : taken false false false cc = false := by cases cc <;> rfl

/-- Executing the zero word leaves the state as the fetch left it. -/
theorem exec_zero (s : State) : exec (decodeWord 0#16) s = .next s := by
  rw [decodeWord_zero, exec_br, taken_no_condition]
  rfl

/-- Settles O55: the step is the execution of the zero word in the state the fetch leaves. -/
theorem zeroWordOnlyAdvances : Obligations.ZeroWordOnlyAdvances := by
  intro s hr hd hz
  have hf := fetch_plain hd
  rw [hz] at hf
  exact ⟨_, (step_of_fetch hr hf).trans (exec_zero _), Alike.refl _⟩

end Sys2Proof.Machine
end
